-- ==== Sys2Proof/Config.lean ====
section
/-! DEFINITION. The parameters of `00_scope.md` R3. All are fixed by the spec. The spec's two open
parameters, `LAT` and `RESET_KIND`, are observable by no rule (R96, R90) and have no constant here:
see `notes/assumptions/7.md`. -/

namespace Sys2Proof.Config

/-- `BOARD_BITS` (R3). -/
abbrev boardBits : Nat := 64

/-- `BUCKET_BITS` (R3). -/
abbrev bucketBits : Nat := 32

/-- `NBUCKET` (R3). -/
abbrev bucketCount : Nat := 2

/-- `GRID` (R3): rows and columns of the grid view. -/
abbrev gridSide : Nat := 8

/-- `NBREG` (R3). -/
abbrev registerCount : Nat := 8

/-- `CMD_BITS` (R3). -/
abbrev commandBits : Nat := 32

/-- `DATA_WORDS` (R3). -/
abbrev dataWords : Nat := 2

/-- `IMM_BITS` (R3). -/
abbrev immBits : Nat := 16

/-- `ST_BITS` (R3). -/
abbrev statusBits : Nat := 3

/-- The least immediate of R26: `-2^15`. -/
abbrev immMin : Int := -32768

/-- The greatest immediate of R26: `2^15 - 1`. -/
abbrev immMax : Int := 32767

end Sys2Proof.Config
end

