-- ==== Sys2Proof/Word.lean ====
section
/-! DEFINITION. The word types of the BitBoard engine (`00_scope.md` section 5.2, `10_state.md` R6). -/

namespace Sys2Proof

/-- A 32-bit bucket, half-word or port word: the spec's `u32`. -/
abbrev Word := BitVec 32

/-- A 64-bit board value: the spec's `u64`, numbered by value-bits (R4). -/
abbrev Value := BitVec 64

/-- A board: two unsigned 32-bit buckets, `high` the more significant (R6). Every pair is a board. -/
structure Board where
  high : Word
  low : Word
  deriving DecidableEq, Repr

end Sys2Proof
end

