-- ==== Sys2Proof/Syntax.lean ====
section
/-! DEFINITION. The commands of the command set BBE-1 (`30_encoding.md` R28), their operands, and the
command transaction that carries one (R23). -/

namespace Sys2Proof

/-- The eight board registers `B0`..`B7` (R9). -/
inductive BReg where
  | b0 | b1 | b2 | b3 | b4 | b5 | b6 | b7
  deriving DecidableEq, Repr

/-- One command, one constructor per row of the opcode table (R28). Operand order is the assembler's
(R32): destination, receiver, second source, immediate, data words.

The immediate is the mathematical integer `imm` of R26. `value` of `boro` and `bxro` is `none` for
`V = 0` and `some DL` for `V = 1` (R27). -/
inductive Instr where
  /-- `BZERO Bd` (R34) -/
  | bzero (rd : BReg)
  /-- `BLD Bd, high, low` (R35): `dh`, `dl` are the data words -/
  | bld (rd : BReg) (dh dl : Word)
  /-- `BCOPY Bd, Bs` (R36) -/
  | bcopy (rd rs1 : BReg)
  /-- `BRD Bs` (R37) -/
  | brd (rs1 : BReg)
  /-- `BAND Bd, Bs, Bt` (R39) -/
  | band (rd rs1 rs2 : BReg)
  /-- `BOR Bd, Bs, Bt` (R40) -/
  | bor (rd rs1 rs2 : BReg)
  /-- `BXOR Bd, Bs, Bt` (R41) -/
  | bxor (rd rs1 rs2 : BReg)
  /-- `BNOT Bd, Bs` (R42) -/
  | bnot (rd rs1 : BReg)
  /-- `BORO Bd, Bs, #shift[, value]` (R46) -/
  | boro (rd rs1 : BReg) (shift : Int) (value : Option Word)
  /-- `BXRO Bd, Bs, #shift[, value]` (R47) -/
  | bxro (rd rs1 : BReg) (shift : Int) (value : Option Word)
  /-- `BSHL Bd, Bs, #n` (R52) -/
  | bshl (rd rs1 : BReg) (n : Int)
  /-- `BSHR Bd, Bs, #n` (R53) -/
  | bshr (rd rs1 : BReg) (n : Int)
  /-- `BGET Bs, #n` (R55) -/
  | bget (rs1 : BReg) (n : Int)
  /-- `BEMP Bs` (R56) -/
  | bemp (rs1 : BReg)
  /-- `BFLV Bd, Bs` (R58) -/
  | bflv (rd rs1 : BReg)
  /-- `BFLD Bd, Bs` (R59) -/
  | bfld (rd rs1 : BReg)
  /-- `BR180 Bd, Bs` (R60) -/
  | br180 (rd rs1 : BReg)
  /-- `BR90 Bd, Bs` (R61) -/
  | br90 (rd rs1 : BReg)
  deriving DecidableEq, Repr

/-- The 18 assigned opcodes (R28). -/
inductive Opcode where
  | bzero | bld | bcopy | brd
  | band | bor | bxor | bnot
  | boro | bxro
  | bshl | bshr
  | bget | bemp
  | bflv | bfld | br180 | br90
  deriving DecidableEq, Repr

/-- The eight formats (R25). -/
inductive Format where
  | z | d | r2 | s | r3 | o | i | q
  deriving DecidableEq, Repr

/-- One transaction on the command port: the command word and two data words, 96 bits (R23). -/
structure Command where
  cmd : Word
  dh : Word
  dl : Word
  deriving DecidableEq, Repr

/-- The six fields of the command word (R24). A field left out is zero, as R25 asks of an unused one. -/
structure Fields where
  op : BitVec 6
  rd : BitVec 3 := 0
  rs1 : BitVec 3 := 0
  rs2 : BitVec 3 := 0
  v : BitVec 1 := 0
  imm16 : BitVec 16 := 0
  deriving DecidableEq, Repr

/-- Why a command word is illegal: the two cases of R29, in the order they are checked (R83). -/
inductive Illegal where
  /-- case (a): `op` is none of the 18 values of R28 -/
  | unassignedOpcode
  /-- case (b): a field the format does not use is not zero -/
  | unusedFieldNonzero
  deriving DecidableEq, Repr

end Sys2Proof
end

