-- ==== Sys2Proof/WellFormed.lean ====
section
/-! DEFINITION. Which commands a command word can carry. Register numbers and data words are in range
by their types (R24: every 3-bit register field names a register); the immediate of formats `O`, `I`
and `Q` must fit 16 bits (R26). -/

namespace Sys2Proof

/-- `-32768 <= n <= 32767` (R26, R32). -/
def immFits (n : Int) : Bool := decide (Config.immMin ≤ n) && decide (n ≤ Config.immMax)

/-- The command can be encoded. -/
def Instr.wellFormed : Instr → Bool
  | .bzero _ => true
  | .bld _ _ _ => true
  | .bcopy _ _ => true
  | .brd _ => true
  | .band _ _ _ => true
  | .bor _ _ _ => true
  | .bxor _ _ _ => true
  | .bnot _ _ => true
  | .boro _ _ shift _ => immFits shift
  | .bxro _ _ shift _ => immFits shift
  | .bshl _ _ n => immFits n
  | .bshr _ _ n => immFits n
  | .bget _ n => immFits n
  | .bemp _ => true
  | .bflv _ _ => true
  | .bfld _ _ => true
  | .br180 _ _ => true
  | .br90 _ _ => true

end Sys2Proof
end

