-- ==== Sys2Proof/Decode.lean ====
section
/-! DEFINITION. The command word's fields, the opcode map and formats, the decoder, and after it the
encoder (`30_encoding.md` R23 to R30). Decoding is total: a word is a command or illegal for one of
the two reasons of R29, found in the order of R30 and R83. -/

namespace Sys2Proof

/-! ## Fields (R24) -/

/-- The fields of a command word at the positions of R24. -/
def fieldsOf (w : Word) : Fields where
  op := w.extractLsb' 26 6
  rd := w.extractLsb' 23 3
  rs1 := w.extractLsb' 20 3
  rs2 := w.extractLsb' 17 3
  v := w.extractLsb' 16 1
  imm16 := w.extractLsb' 0 16

/-- The command word with the given fields, `op` in the most significant bits (R24). -/
def packFields (f : Fields) : Word :=
  f.op ++ f.rd ++ f.rs1 ++ f.rs2 ++ f.v ++ f.imm16

/-- The register a 3-bit field names (R24): every value names one. -/
def regOf (n : BitVec 3) : BReg :=
  match n.toNat with
  | 0 => .b0
  | 1 => .b1
  | 2 => .b2
  | 3 => .b3
  | 4 => .b4
  | 5 => .b5
  | 6 => .b6
  | _ => .b7

/-- The 3-bit number of a register (R9). -/
def regNum : BReg → BitVec 3
  | .b0 => 0
  | .b1 => 1
  | .b2 => 2
  | .b3 => 3
  | .b4 => 4
  | .b5 => 5
  | .b6 => 6
  | .b7 => 7

/-! ## Opcode map (R28) -/

/-- The 18 opcodes in the order of R28's table. -/
def allOpcodes : List Opcode :=
  [.bzero, .bld, .bcopy, .brd, .band, .bor, .bxor, .bnot, .boro, .bxro, .bshl, .bshr, .bget, .bemp,
    .bflv, .bfld, .br180, .br90]

/-- Column `op` of R28. -/
def opcodeNumber : Opcode → BitVec 6
  | .bzero => 0x01
  | .bld => 0x02
  | .bcopy => 0x03
  | .brd => 0x04
  | .band => 0x08
  | .bor => 0x09
  | .bxor => 0x0A
  | .bnot => 0x0B
  | .boro => 0x10
  | .bxro => 0x11
  | .bshl => 0x18
  | .bshr => 0x19
  | .bget => 0x20
  | .bemp => 0x21
  | .bflv => 0x28
  | .bfld => 0x29
  | .br180 => 0x2A
  | .br90 => 0x2B

/-- The opcode with a given number, `none` for the 46 unassigned values (R29). -/
def opcodeOf (op : BitVec 6) : Option Opcode :=
  allOpcodes.find? fun o => opcodeNumber o == op

/-- Column `format` of R28. -/
def opcodeFormat : Opcode → Format
  | .bzero => .z
  | .bld => .d
  | .bcopy => .r2
  | .brd => .s
  | .band => .r3
  | .bor => .r3
  | .bxor => .r3
  | .bnot => .r2
  | .boro => .o
  | .bxro => .o
  | .bshl => .i
  | .bshr => .i
  | .bget => .q
  | .bemp => .s
  | .bflv => .r2
  | .bfld => .r2
  | .br180 => .r2
  | .br90 => .r2

/-- Column `match` of R28. The decoder does not use it: that the decoder agrees with R28's `match`
and `mask` is a statement. -/
def opcodeMatch : Opcode → Word
  | .bzero => 0x04000000
  | .bld => 0x08000000
  | .bcopy => 0x0C000000
  | .brd => 0x10000000
  | .band => 0x20000000
  | .bor => 0x24000000
  | .bxor => 0x28000000
  | .bnot => 0x2C000000
  | .boro => 0x40000000
  | .bxro => 0x44000000
  | .bshl => 0x60000000
  | .bshr => 0x64000000
  | .bget => 0x80000000
  | .bemp => 0x84000000
  | .bflv => 0xA0000000
  | .bfld => 0xA4000000
  | .br180 => 0xA8000000
  | .br90 => 0xAC000000

/-- Column `mask` of R28. -/
def opcodeMask : Opcode → Word
  | .bzero => 0xFC7FFFFF
  | .bld => 0xFC7FFFFF
  | .bcopy => 0xFC0FFFFF
  | .brd => 0xFF8FFFFF
  | .band => 0xFC01FFFF
  | .bor => 0xFC01FFFF
  | .bxor => 0xFC01FFFF
  | .bnot => 0xFC0FFFFF
  | .boro => 0xFC0E0000
  | .bxro => 0xFC0E0000
  | .bshl => 0xFC0F0000
  | .bshr => 0xFC0F0000
  | .bget => 0xFF8F0000
  | .bemp => 0xFF8FFFFF
  | .bflv => 0xFC0FFFFF
  | .bfld => 0xFC0FFFFF
  | .br180 => 0xFC0FFFFF
  | .br90 => 0xFC0FFFFF

/-- Some field the format does not use (R25) is not zero (R29, case (b)). -/
def unusedNonzero (fmt : Format) (f : Fields) : Bool :=
  match fmt with
  | .z => f.rs1 != 0 || f.rs2 != 0 || f.v != 0 || f.imm16 != 0
  | .d => f.rs1 != 0 || f.rs2 != 0 || f.v != 0 || f.imm16 != 0
  | .r2 => f.rs2 != 0 || f.v != 0 || f.imm16 != 0
  | .s => f.rd != 0 || f.rs2 != 0 || f.v != 0 || f.imm16 != 0
  | .r3 => f.v != 0 || f.imm16 != 0
  | .o => f.rs2 != 0
  | .i => f.rs2 != 0 || f.v != 0
  | .q => f.rd != 0 || f.rs2 != 0 || f.v != 0

/-! ## Decoder (R26, R27, R30) -/

/-- The immediate: the 16 bits read as two's complement (R26). -/
def immOf (f : Fields) : Int := f.imm16.toInt

/-- `none` for `V = 0`, whatever `DL` holds; `some DL` for `V = 1` (R27). -/
def valueArg (f : Fields) (dl : Word) : Option Word :=
  if f.v = 1 then some dl else none

/-- The command of an opcode and its fields, once the checks of R30 have passed. -/
def instrOf (o : Opcode) (f : Fields) (dh dl : Word) : Instr :=
  match o with
  | .bzero => .bzero (regOf f.rd)
  | .bld => .bld (regOf f.rd) dh dl
  | .bcopy => .bcopy (regOf f.rd) (regOf f.rs1)
  | .brd => .brd (regOf f.rs1)
  | .band => .band (regOf f.rd) (regOf f.rs1) (regOf f.rs2)
  | .bor => .bor (regOf f.rd) (regOf f.rs1) (regOf f.rs2)
  | .bxor => .bxor (regOf f.rd) (regOf f.rs1) (regOf f.rs2)
  | .bnot => .bnot (regOf f.rd) (regOf f.rs1)
  | .boro => .boro (regOf f.rd) (regOf f.rs1) (immOf f) (valueArg f dl)
  | .bxro => .bxro (regOf f.rd) (regOf f.rs1) (immOf f) (valueArg f dl)
  | .bshl => .bshl (regOf f.rd) (regOf f.rs1) (immOf f)
  | .bshr => .bshr (regOf f.rd) (regOf f.rs1) (immOf f)
  | .bget => .bget (regOf f.rs1) (immOf f)
  | .bemp => .bemp (regOf f.rs1)
  | .bflv => .bflv (regOf f.rd) (regOf f.rs1)
  | .bfld => .bfld (regOf f.rd) (regOf f.rs1)
  | .br180 => .br180 (regOf f.rd) (regOf f.rs1)
  | .br90 => .br90 (regOf f.rd) (regOf f.rs1)

/-- Decode one command: the opcode check, then the unused-field check (R30). -/
def decode (c : Command) : Except Illegal Instr :=
  match opcodeOf (fieldsOf c.cmd).op with
  | none => .error .unassignedOpcode
  | some o =>
    if unusedNonzero (opcodeFormat o) (fieldsOf c.cmd) then .error .unusedFieldNonzero
    else .ok (instrOf o (fieldsOf c.cmd) c.dh c.dl)

/-- The command whose 96 bits are the low `nbits` bits of `w`, the rest zero: `CMD` in bits 31..0,
`DH` in bits 63..32, `DL` in bits 95..64 (the order of R23; DEDUCED, `notes/assumptions/9.md`). -/
def commandOfBits (nbits w : Nat) : Command where
  cmd := BitVec.ofNat 32 (w % 2 ^ nbits)
  dh := BitVec.ofNat 32 (w % 2 ^ nbits / 2 ^ 32)
  dl := BitVec.ofNat 32 (w % 2 ^ nbits / 2 ^ 64)

/-- The command the decoder reads from a command whose bits are `w`. -/
def decodeTableWord (nbits w : Nat) : Option Instr :=
  match decode (commandOfBits nbits w) with
  | .ok i => some i
  | .error _ => none

/-! ## Encoder (R24, R25, R27, R28, R32) -/

/-- The opcode of a command. -/
def opcodeOfInstr : Instr → Opcode
  | .bzero _ => .bzero
  | .bld _ _ _ => .bld
  | .bcopy _ _ => .bcopy
  | .brd _ => .brd
  | .band _ _ _ => .band
  | .bor _ _ _ => .bor
  | .bxor _ _ _ => .bxor
  | .bnot _ _ => .bnot
  | .boro _ _ _ _ => .boro
  | .bxro _ _ _ _ => .bxro
  | .bshl _ _ _ => .bshl
  | .bshr _ _ _ => .bshr
  | .bget _ _ => .bget
  | .bemp _ => .bemp
  | .bflv _ _ => .bflv
  | .bfld _ _ => .bfld
  | .br180 _ _ => .br180
  | .br90 _ _ => .br90

/-- The immediate field of an integer: two's complement (R26). -/
def immField (n : Int) : BitVec 16 := BitVec.ofInt 16 n

/-- The flag `V` of an optional `value` (R27). -/
def valueFlag : Option Word → BitVec 1
  | none => 0
  | some _ => 1

/-- The data word `DL` of an optional `value`; 0 where the line gives none (R32). -/
def valueWord : Option Word → Word
  | none => 0
  | some d => d

/-- The fields of a command; those its format does not use are zero (R25). -/
def fieldsOfInstr (i : Instr) : Fields :=
  let op := opcodeNumber (opcodeOfInstr i)
  match i with
  | .bzero rd => { op, rd := regNum rd }
  | .bld rd _ _ => { op, rd := regNum rd }
  | .bcopy rd rs1 => { op, rd := regNum rd, rs1 := regNum rs1 }
  | .brd rs1 => { op, rs1 := regNum rs1 }
  | .band rd rs1 rs2 => { op, rd := regNum rd, rs1 := regNum rs1, rs2 := regNum rs2 }
  | .bor rd rs1 rs2 => { op, rd := regNum rd, rs1 := regNum rs1, rs2 := regNum rs2 }
  | .bxor rd rs1 rs2 => { op, rd := regNum rd, rs1 := regNum rs1, rs2 := regNum rs2 }
  | .bnot rd rs1 => { op, rd := regNum rd, rs1 := regNum rs1 }
  | .boro rd rs1 shift value =>
    { op, rd := regNum rd, rs1 := regNum rs1, v := valueFlag value, imm16 := immField shift }
  | .bxro rd rs1 shift value =>
    { op, rd := regNum rd, rs1 := regNum rs1, v := valueFlag value, imm16 := immField shift }
  | .bshl rd rs1 n => { op, rd := regNum rd, rs1 := regNum rs1, imm16 := immField n }
  | .bshr rd rs1 n => { op, rd := regNum rd, rs1 := regNum rs1, imm16 := immField n }
  | .bget rs1 n => { op, rs1 := regNum rs1, imm16 := immField n }
  | .bemp rs1 => { op, rs1 := regNum rs1 }
  | .bflv rd rs1 => { op, rd := regNum rd, rs1 := regNum rs1 }
  | .bfld rd rs1 => { op, rd := regNum rd, rs1 := regNum rs1 }
  | .br180 rd rs1 => { op, rd := regNum rd, rs1 := regNum rs1 }
  | .br90 rd rs1 => { op, rd := regNum rd, rs1 := regNum rs1 }

/-- The data words of a command, `(DH, DL)`; 0 where its format uses none (R25, R32). -/
def dataWordsOf : Instr → Word × Word
  | .bzero _ => (0, 0)
  | .bld _ dh dl => (dh, dl)
  | .bcopy _ _ => (0, 0)
  | .brd _ => (0, 0)
  | .band _ _ _ => (0, 0)
  | .bor _ _ _ => (0, 0)
  | .bxor _ _ _ => (0, 0)
  | .bnot _ _ => (0, 0)
  | .boro _ _ _ value => (0, valueWord value)
  | .bxro _ _ _ value => (0, valueWord value)
  | .bshl _ _ _ => (0, 0)
  | .bshr _ _ _ => (0, 0)
  | .bget _ _ => (0, 0)
  | .bemp _ => (0, 0)
  | .bflv _ _ => (0, 0)
  | .bfld _ _ => (0, 0)
  | .br180 _ _ => (0, 0)
  | .br90 _ _ => (0, 0)

/-- The command transaction of a command, as the assembler emits it (R32). -/
def encode (i : Instr) : Command where
  cmd := packFields (fieldsOfInstr i)
  dh := (dataWordsOf i).1
  dl := (dataWordsOf i).2

end Sys2Proof
end

