-- ==== Sys2Proof/Machine/State.lean ====
section
/-! DEFINITION. The state of the engine and the reasons a step can stop.

The architectural state is the eight board registers and nothing else (R11, R14). Two further fields
hold the two ports and the reset input of R12 at the transaction level, so that one step is a function
of the state: what the host will present next (`inputs`) and what the engine has answered since reset
(`responses`). Both are the model's own fields: `notes/assumptions/1.md` and `2.md`. -/

namespace Sys2Proof.Machine

/-- The classes of R79, as the status `ST` carries them. Codes 5, 6 and 7 are unassigned and have no
constructor. -/
inductive Status where
  /-- 0: no error -/
  | ok
  /-- 1: malformed constructor input; the host adapter's only -/
  | invalidArgument
  /-- 2: a numeric parameter outside its domain -/
  | outOfRange
  /-- 3: an operand is not a board; the host adapter's only -/
  | notABoard
  /-- 4: a command word R28 does not define -/
  | illegalCommand
  deriving DecidableEq, Repr

/-- One transaction on the response port: `ST`, `RH`, `RL` (R12, R31). -/
structure Response where
  st : Status
  rh : Word
  rl : Word
  deriving DecidableEq, Repr

/-- What the host can do to the engine (R12): present a command, or assert `RESET`. -/
inductive HostInput where
  | command (c : Command)
  | reset
  deriving DecidableEq, Repr

/-- The board registers `B0`..`B7` (R9). -/
structure BoardFile where
  b0 : Board
  b1 : Board
  b2 : Board
  b3 : Board
  b4 : Board
  b5 : Board
  b6 : Board
  b7 : Board
  deriving DecidableEq, Repr

/-- The state. -/
structure State where
  /-- the board registers: the whole architectural state (R9, R11) -/
  regs : BoardFile
  /-- the command port and the reset input: what the host presents, first to be taken first (R12, R20) -/
  inputs : List HostInput
  /-- the response port: every response delivered since reset, oldest first (R12, R94) -/
  responses : List Response
  deriving DecidableEq, Repr

/-- The zero board (R6 and `00_scope.md` section 7): both buckets 0. -/
def zeroBoard : Board := ⟨0, 0⟩

/-- All eight registers hold the zero board (R14). -/
def zeroBoards : BoardFile :=
  ⟨zeroBoard, zeroBoard, zeroBoard, zeroBoard, zeroBoard, zeroBoard, zeroBoard, zeroBoard⟩

/-- The machine right after reset: every register the zero board, no command in progress, no response
pending (R14, R90). The host has presented nothing yet. -/
def State.reset : State where
  regs := zeroBoards
  inputs := []
  responses := []

/-- Reasons the machine stops with a fault: none. Every command the engine accepts is answered, a
failing one with an error status and an unchanged state (R81, R96), and the engine has no memory, no
trap and no halt (R15, R85, R88). Nobody raises a fault; safe. -/
inductive Fault where
  deriving DecidableEq, Repr

/-- Reasons the model gives a command no meaning. -/
inductive Refusal where
  /-- Raised by an arm of `exec` whose command has no meaning yet, with its mnemonic. No arm of this
  model raises it; safe. -/
  | notModelled (mnemonic : String)
  deriving DecidableEq, Repr

end Sys2Proof.Machine
end

