-- ==== Sys2Proof/Machine/Operands.lean ====
section
/-! DEFINITION. The operand forms and the bit-level primitives of `00_scope.md` section 5.2: the two
numberings of a board's bits, the 32-bit and 64-bit shifts, and the optional `value` of R27. -/

namespace Sys2Proof.Machine

/-! ## The two halves of a value (R6) -/

/-- `cat(h, l) = h * 2^32 + l`. -/
def cat (h l : Word) : Value := h ++ l

/-- `hi32(v) = v[63:32]`. -/
def hi32 (v : Value) : Word := v.extractLsb' 32 32

/-- `lo32(v) = v[31:0]`. -/
def lo32 (v : Value) : Word := v.extractLsb' 0 32

/-- The value of a board (R6). -/
def valueOf (b : Board) : Value := cat b.high b.low

/-- The board of a value (R6). -/
def boardOf (v : Value) : Board := ⟨hi32 v, lo32 v⟩

/-! ## Index numbering (R4, R7) -/

/-- The bit at index `n`, `0 <= n <= 63`, index 0 the most significant: the pseudocode of R7, which
picks the bucket at the boundary 32. -/
def idx (v : Value) (n : Nat) : Bool :=
  if n < 32 then (hi32 v).getLsbD (31 - n) else (lo32 v).getLsbD (63 - n)

/-! ## Shifts (`00_scope.md` section 5.2): mathematical shifts, no count wraps -/

/-- `shl32(x, k) = (x * 2^k) mod 2^32`. -/
def shl32 (x : Word) (k : Nat) : Word := x <<< k

/-- `shr32(x, k) = floor(x / 2^k)`. -/
def shr32 (x : Word) (k : Nat) : Word := x >>> k

/-- `shl64(v, k) = (v * 2^k) mod 2^64`. -/
def shl64 (v : Value) (k : Nat) : Value := v <<< k

/-- `shr64(v, k) = floor(v / 2^k)`. -/
def shr64 (v : Value) (k : Nat) : Value := v >>> k

/-- `top32(k) = 2^32 - 2^(32-k)`, `0 <= k <= 32`: the `k` most significant bits set. -/
def top32 (k : Nat) : Word := BitVec.ofNat 32 (2 ^ 32 - 2 ^ (32 - k))

/-- `bot32(k) = 2^k - 1`, `0 <= k <= 32`: the `k` least significant bits set. -/
def bot32 (k : Nat) : Word := BitVec.ofNat 32 (2 ^ k - 1)

/-! ## Operands of the commands -/

/-- The operand `value` of format `O`: 1 when it is not given (`V = 0`), else the data word (R27). -/
def valueOperand : Option Word → Word
  | none => 1
  | some d => d

/-- A bit position outside `0 .. 63` (R26, R80). -/
abbrev OutsideBoard (n : Int) : Prop := n < 0 ∨ n > 63

/-- A lane-wise binary operation on the two buckets (R38). -/
def lanewise (f : Word → Word → Word) (a b : Board) : Board := ⟨f a.high b.high, f a.low b.low⟩

/-- A bit as a response word: 0 or 1 (R31). -/
def bitWord (b : Bool) : Word := if b then 1 else 0

end Sys2Proof.Machine
end

