-- ==== Sys2Proof/Machine/Flags.lean ====
section
/-! DEFINITION. The engine has no status flags and no condition codes (R11). What a command reports, it
reports in its own response and nowhere else: this file holds the status codes and the responses
(R31, R79). -/

namespace Sys2Proof.Machine

/-- The 3-bit code of a class on the wires `ST[2:0]` (R79). -/
def statusCode : Status → BitVec 3
  | .ok => 0
  | .invalidArgument => 1
  | .outOfRange => 2
  | .notABoard => 3
  | .illegalCommand => 4

/-- The normal response `respond(h, l)` (`00_scope.md` section 5.3): `ST = 0`, `RH = h`, `RL = l`. -/
def okResponse (h l : Word) : Response := ⟨.ok, h, l⟩

/-- The response of `raise <Error>` (R81): the class, and both result words 0. -/
def errorResponse (e : Status) : Response := ⟨e, 0, 0⟩

end Sys2Proof.Machine
end

