-- ==== Sys2Proof/Machine/Ops.lean ====
section
/-! DEFINITION. The named operations over the state: the one reading and the one writing of a board
register, the delivery of a response, the two ways a command ends, the taking of an input and the
reset. The engine has no memory (R15), so there are no memory operations. -/

namespace Sys2Proof.Machine

/-- `B[r]` (R9). No register is hardwired. -/
def readBoard (s : State) : BReg → Board
  | .b0 => s.regs.b0
  | .b1 => s.regs.b1
  | .b2 => s.regs.b2
  | .b3 => s.regs.b3
  | .b4 => s.regs.b4
  | .b5 => s.regs.b5
  | .b6 => s.regs.b6
  | .b7 => s.regs.b7

/-- `B[r] <- b`: both buckets are written (R9, R19). -/
def writeBoard (s : State) (r : BReg) (b : Board) : State :=
  match r with
  | .b0 => { s with regs := { s.regs with b0 := b } }
  | .b1 => { s with regs := { s.regs with b1 := b } }
  | .b2 => { s with regs := { s.regs with b2 := b } }
  | .b3 => { s with regs := { s.regs with b3 := b } }
  | .b4 => { s with regs := { s.regs with b4 := b } }
  | .b5 => { s with regs := { s.regs with b5 := b } }
  | .b6 => { s with regs := { s.regs with b6 := b } }
  | .b7 => { s with regs := { s.regs with b7 := b } }

/-- Deliver one response on the response port, after those of earlier commands (R20, R94). -/
def deliver (s : State) (r : Response) : State := { s with responses := s.responses ++ [r] }

/-- A command ends normally without a write: `respond(h, l)`. -/
def respondWith (s : State) (h l : Word) : State := deliver s (okResponse h l)

/-- A command with a destination ends normally: the one register write, and the value written on the
response port (R19, R31). -/
def commit (s : State) (rd : BReg) (b : Board) : State :=
  respondWith (writeBoard s rd b) b.high b.low

/-- TAKING AN EXCEPTION, `raise <Error>`: no register is written, nothing else changes, and the
response carries the class with both result words 0 (R81). There is no trap entry, no saved state
(R85) and hence no return from one (R86): the engine is ready for the next command. -/
def raiseError (s : State) (e : Status) : State := deliver s (errorResponse e)

/-- Take the first input from the port; `rest` is what the host presents after it (R20). -/
def takeInput (s : State) (rest : List HostInput) : State := { s with inputs := rest }

/-- `RESET` (R90): every register the zero board and no response pending, whatever the state was.
What the host presents after the reset is not lost. -/
def resetEngine (rest : List HostInput) : State := { State.reset with inputs := rest }

/-- The host presents commands after those it has presented already (R20). -/
def present (s : State) (cs : List Command) : State :=
  { s with inputs := s.inputs ++ cs.map .command }

end Sys2Proof.Machine
end

