-- ==== Sys2Proof/Machine/Construct.lean ====
section
/-! DEFINITION. Construction, copy and read-out (`40_construct_move.md`). -/

namespace Sys2Proof.Machine

/-- `BZERO Bd` (R34). -/
def execBzero (rd : BReg) (s : State) : Host.Outcome State Fault Refusal :=
  .next (commit s rd zeroBoard)

/-- `BLD Bd, high, low` (R35): `DH` is the `high` bucket, `DL` the `low` one (R16). -/
def execBld (rd : BReg) (dh dl : Word) (s : State) : Host.Outcome State Fault Refusal :=
  .next (commit s rd ⟨dh, dl⟩)

/-- `BCOPY Bd, Bs` (R36). -/
def execBcopy (rd rs1 : BReg) (s : State) : Host.Outcome State Fault Refusal :=
  .next (commit s rd (readBoard s rs1))

/-- `BRD Bs` (R37). -/
def execBrd (rs1 : BReg) (s : State) : Host.Outcome State Fault Refusal :=
  .next (respondWith s (readBoard s rs1).high (readBoard s rs1).low)

end Sys2Proof.Machine
end

