-- ==== Sys2Proof/Machine/Logic.lean ====
section
/-! DEFINITION. Bucket-wise logic (`41_logic.md`). -/

namespace Sys2Proof.Machine

/-- The bucket-wise complement (R42). -/
def complement (a : Board) : Board := ⟨~~~a.high, ~~~a.low⟩

/-- `BAND Bd, Bs, Bt` (R39). -/
def execBand (rd rs1 rs2 : BReg) (s : State) : Host.Outcome State Fault Refusal :=
  .next (commit s rd (lanewise (· &&& ·) (readBoard s rs1) (readBoard s rs2)))

/-- `BOR Bd, Bs, Bt` (R40). -/
def execBor (rd rs1 rs2 : BReg) (s : State) : Host.Outcome State Fault Refusal :=
  .next (commit s rd (lanewise (· ||| ·) (readBoard s rs1) (readBoard s rs2)))

/-- `BXOR Bd, Bs, Bt` (R41). -/
def execBxor (rd rs1 rs2 : BReg) (s : State) : Host.Outcome State Fault Refusal :=
  .next (commit s rd (lanewise (· ^^^ ·) (readBoard s rs1) (readBoard s rs2)))

/-- `BNOT Bd, Bs` (R42). -/
def execBnot (rd rs1 : BReg) (s : State) : Host.Outcome State Fault Refusal :=
  .next (commit s rd (complement (readBoard s rs1)))

end Sys2Proof.Machine
end

