-- ==== Sys2Proof/Machine/Offset.lean ====
section
/-! DEFINITION. Offset combine (`42_offset_combine.md`). -/

namespace Sys2Proof.Machine

/-- The contribution `offc(value, shift) = (value * 2^shift) mod 2^64` (R44). -/
def offc (value : Word) (shift : Nat) : Value := shl64 (value.setWidth 64) shift

/-- The half-word form of the contribution, `0 <= shift <= 63`, by the four cases of R45. -/
def offcLanes (value : Word) (shift : Nat) : Board :=
  if shift = 0 then ⟨0, value⟩
  else if shift < 32 then ⟨shr32 value (32 - shift), shl32 value shift⟩
  else if shift = 32 then ⟨value, 0⟩
  else ⟨shl32 value (shift - 32), 0⟩

/-- The common rule of R46 and R47: check the shift, then combine the receiver with the contribution
lane by lane. -/
def offsetCombine (f : Word → Word → Word) (rd rs1 : BReg) (shift : Int) (value : Option Word)
    (s : State) : State :=
  if OutsideBoard shift then raiseError s .outOfRange
  else commit s rd (lanewise f (readBoard s rs1) (offcLanes (valueOperand value) shift.toNat))

/-- `BORO Bd, Bs, #shift[, value]` (R46). -/
def execBoro (rd rs1 : BReg) (shift : Int) (value : Option Word) (s : State) :
    Host.Outcome State Fault Refusal :=
  .next (offsetCombine (· ||| ·) rd rs1 shift value s)

/-- `BXRO Bd, Bs, #shift[, value]` (R47). -/
def execBxro (rd rs1 : BReg) (shift : Int) (value : Option Word) (s : State) :
    Host.Outcome State Fault Refusal :=
  .next (offsetCombine (· ^^^ ·) rd rs1 shift value s)

end Sys2Proof.Machine
end

