-- ==== Sys2Proof/Machine/Query.lean ====
section
/-! DEFINITION. Queries (`44_query.md`). Their answers go to the response only (R11). -/

namespace Sys2Proof.Machine

/-- The bit of a board at an index as a word, by the two cases of R55's pseudocode. -/
def bitAtIndex (b : Board) (n : Nat) : Word :=
  if n < 32 then shr32 b.high (31 - n) &&& 1 else shr32 b.low (63 - n) &&& 1

/-- Both buckets are zero (R56). -/
def isEmpty (b : Board) : Bool := b.high == 0 && b.low == 0

/-- `BGET Bs, #n` (R55). -/
def execBget (rs1 : BReg) (n : Int) (s : State) : Host.Outcome State Fault Refusal :=
  if OutsideBoard n then .next (raiseError s .outOfRange)
  else .next (respondWith s 0 (bitAtIndex (readBoard s rs1) n.toNat))

/-- `BEMP Bs` (R56). -/
def execBemp (rs1 : BReg) (s : State) : Host.Outcome State Fault Refusal :=
  .next (respondWith s 0 (bitWord (isEmpty (readBoard s rs1))))

end Sys2Proof.Machine
end

