-- ==== Sys2Proof/Machine/Shift.lean ====
section
/-! DEFINITION. Whole-board shifts with carry across the half-word boundary (`43_shift.md`). -/

namespace Sys2Proof.Machine

/-- The half-word form of the left shift, with the carry of R49. -/
def shlLanes (b : Board) (n : Nat) : Board :=
  if n ≥ 64 then ⟨0, 0⟩
  else if n > 32 then ⟨shl32 b.low (n - 32), 0⟩
  else ⟨shl32 b.high n ||| shr32 (b.low &&& top32 n) (32 - n), shl32 b.low n⟩

/-- The half-word form of the right shift, with the carry of R51. Logical: zeros enter (R50). -/
def shrLanes (b : Board) (n : Nat) : Board :=
  if n ≥ 64 then ⟨0, 0⟩
  else if n > 32 then ⟨0, shr32 b.high (n - 32)⟩
  else ⟨shr32 b.high n, shr32 b.low n ||| shl32 (b.high &&& bot32 n) (32 - n)⟩

/-- The common rule of R52 and R53: a negative amount is an error, every other amount is defined. -/
def shiftBoard (f : Board → Nat → Board) (rd rs1 : BReg) (n : Int) (s : State) : State :=
  if n < 0 then raiseError s .outOfRange
  else commit s rd (f (readBoard s rs1) n.toNat)

/-- `BSHL Bd, Bs, #n` (R52). -/
def execBshl (rd rs1 : BReg) (n : Int) (s : State) : Host.Outcome State Fault Refusal :=
  .next (shiftBoard shlLanes rd rs1 n s)

/-- `BSHR Bd, Bs, #n` (R53). -/
def execBshr (rd rs1 : BReg) (n : Int) (s : State) : Host.Outcome State Fault Refusal :=
  .next (shiftBoard shrLanes rd rs1 n s)

end Sys2Proof.Machine
end

