-- ==== Sys2Proof/Machine/Transform.lean ====
section
/-! DEFINITION. The geometric transforms as permutations of squares, which is how the spec defines
their results (`45_transform.md` R57 to R62). The mask networks are in `Machine/Networks.lean`. -/

namespace Sys2Proof.Machine

/-- A square `(R, C)`: row `R` from the top, column `C` from the left (R8). -/
abbrev Square := Fin 8 × Fin 8

/-- The index of a square, `8*R + C` (R8). -/
def squareIndex (q : Square) : Nat := 8 * q.1.val + q.2.val

/-- The eight rows, or the eight columns. -/
def gridLine : List (Fin 8) := [0, 1, 2, 3, 4, 5, 6, 7]

/-- The 64 squares in index order: `for R in 0..7: for C in 0..7` (R57). -/
def allSquares : List Square := gridLine.flatMap fun r => gridLine.map fun c => (r, c)

/-- One turn of the loop of R57: set the square's image in `w` when the square is set in `v`. -/
def placeSquare (v : Value) (p : Square → Square) (w : Value) (q : Square) : Value :=
  if idx v (squareIndex q) then w ||| BitVec.twoPow 64 (63 - squareIndex (p q)) else w

/-- `grid_transform(v, p)` (R57): the content of square `q` moves to square `p q`. -/
def gridTransform (v : Value) (p : Square → Square) : Value :=
  allSquares.foldl (placeSquare v p) 0

/-! ## Square maps -/

/-- The vertical flip `(R, C) -> (7 - R, C)` (R58). -/
def flipVerticalMap (q : Square) : Square := (7 - q.1, q.2)

/-- The diagonal flip `(R, C) -> (7 - C, 7 - R)` (R59, by conflict C1). -/
def flipDiagonalMap (q : Square) : Square := (7 - q.2, 7 - q.1)

/-- The 180 degree rotation `(R, C) -> (7 - R, 7 - C)` (R60). -/
def rotate180Map (q : Square) : Square := (7 - q.1, 7 - q.2)

/-- The 90 degree clockwise rotation `(R, C) -> (C, 7 - R)` (R61). -/
def rotate90Map (q : Square) : Square := (q.2, 7 - q.1)

/-- The horizontal mirror `(R, C) -> (R, 7 - C)` (R62); not a command. -/
def mirrorMap (q : Square) : Square := (q.1, 7 - q.2)

/-! ## The transforms on values -/

/-- `flip_vertical` (R58). -/
def flipVertical (v : Value) : Value := gridTransform v flipVerticalMap

/-- `flip_diagonal` (R59). -/
def flipDiagonal (v : Value) : Value := gridTransform v flipDiagonalMap

/-- `rotate_180` (R60). -/
def rotate180 (v : Value) : Value := gridTransform v rotate180Map

/-- `rotate_90_clockwise` (R61): the diagonal flip first, then the vertical flip. -/
def rotate90 (v : Value) : Value := flipVertical (flipDiagonal v)

/-- The horizontal mirror (R62). -/
def mirror (v : Value) : Value := gridTransform v mirrorMap

/-! ## The commands -/

/-- `BFLV Bd, Bs` (R58). -/
def execBflv (rd rs1 : BReg) (s : State) : Host.Outcome State Fault Refusal :=
  .next (commit s rd (boardOf (flipVertical (valueOf (readBoard s rs1)))))

/-- `BFLD Bd, Bs` (R59). -/
def execBfld (rd rs1 : BReg) (s : State) : Host.Outcome State Fault Refusal :=
  .next (commit s rd (boardOf (flipDiagonal (valueOf (readBoard s rs1)))))

/-- `BR180 Bd, Bs` (R60). -/
def execBr180 (rd rs1 : BReg) (s : State) : Host.Outcome State Fault Refusal :=
  .next (commit s rd (boardOf (rotate180 (valueOf (readBoard s rs1)))))

/-- `BR90 Bd, Bs` (R61). -/
def execBr90 (rd rs1 : BReg) (s : State) : Host.Outcome State Fault Refusal :=
  .next (commit s rd (boardOf (rotate90 (valueOf (readBoard s rs1)))))

end Sys2Proof.Machine
end

