-- ==== Sys2Proof/Machine/Dispatch.lean ====
section
/-! DEFINITION. One arm per command. -/

namespace Sys2Proof.Machine

def exec (i : Instr) (s : State) : Host.Outcome State Fault Refusal :=
  match i with
  | .bzero rd => Sys2Proof.Machine.execBzero rd s
  | .bld rd dh dl => Sys2Proof.Machine.execBld rd dh dl s
  | .bcopy rd rs1 => Sys2Proof.Machine.execBcopy rd rs1 s
  | .brd rs1 => Sys2Proof.Machine.execBrd rs1 s
  | .band rd rs1 rs2 => Sys2Proof.Machine.execBand rd rs1 rs2 s
  | .bor rd rs1 rs2 => Sys2Proof.Machine.execBor rd rs1 rs2 s
  | .bxor rd rs1 rs2 => Sys2Proof.Machine.execBxor rd rs1 rs2 s
  | .bnot rd rs1 => Sys2Proof.Machine.execBnot rd rs1 s
  | .boro rd rs1 shift value => Sys2Proof.Machine.execBoro rd rs1 shift value s
  | .bxro rd rs1 shift value => Sys2Proof.Machine.execBxro rd rs1 shift value s
  | .bshl rd rs1 n => Sys2Proof.Machine.execBshl rd rs1 n s
  | .bshr rd rs1 n => Sys2Proof.Machine.execBshr rd rs1 n s
  | .bget rs1 n => Sys2Proof.Machine.execBget rs1 n s
  | .bemp rs1 => Sys2Proof.Machine.execBemp rs1 s
  | .bflv rd rs1 => Sys2Proof.Machine.execBflv rd rs1 s
  | .bfld rd rs1 => Sys2Proof.Machine.execBfld rd rs1 s
  | .br180 rd rs1 => Sys2Proof.Machine.execBr180 rd rs1 s
  | .br90 rd rs1 => Sys2Proof.Machine.execBr90 rd rs1 s

end Sys2Proof.Machine
end

