-- ==== Sys2Proof/Machine/Execute.lean ====
section
/-! DEFINITION. `execute(CMD, DH, DL)` of R30: the two decode checks, then the command's own rule. -/

namespace Sys2Proof.Machine

/-- Execute one command transaction. An illegal word, of either kind, raises `IllegalCommand`. -/
def execute (c : Command) (s : State) : Host.Outcome State Fault Refusal :=
  match decode c with
  | .ok i => exec i s
  | .error _ => .next (raiseError s .illegalCommand)

end Sys2Proof.Machine
end

