-- ==== Sys2Proof/Machine/Step.lean ====
section
/-! DEFINITION. One step of the engine: it takes one host input (R20: the step is one command). -/

namespace Sys2Proof.Machine

/-- One step. With nothing presented the engine is idle and its state does not change (R89); a
command is executed (R30); `RESET` puts the engine in its reset state (R90). -/
def step (s : State) : Host.Outcome State Fault Refusal :=
  match s.inputs with
  | [] => .next s
  | .reset :: rest => .next (resetEngine rest)
  | .command c :: rest => execute c (takeInput s rest)

/-- The engine fetches nothing (R10): the command that runs next is the one the host presents next.
This puts the command with bits `w` at the front of what the host presents. -/
def State.withFetchWord (s : State) (nbits w : Nat) : State :=
  { s with inputs := .command (commandOfBits nbits w) :: s.inputs }

end Sys2Proof.Machine
end

