-- ==== Sys2Proof/Machine/Adapter.lean ====
section
/-! DEFINITION. The host adapter (`46_host_adapter.md`): the layer of pure functions between software
values and commands. It is outside the engine and has no state; an adapter error is raised before any
command is issued (R78). -/

namespace Sys2Proof.Machine

/-! ## Host values -/

/-- A host value as the adapter's checks see it (`notes/assumptions/11.md`): the spec's `Int`, its
`Num` that need not be an integer, or anything that is no number (a string, an object, nothing). -/
inductive HostScalar where
  | integer (x : Int)
  /-- the number `num / den`; no number when `den` is 0 -/
  | fraction (num : Int) (den : Nat)
  | nonNumber
  deriving DecidableEq, Repr

/-- The integer a host value is, if it is one. -/
def asInteger : HostScalar → Option Int
  | .integer x => some x
  | .fraction num den => if den ≠ 0 ∧ num % (den : Int) = 0 then some (num / (den : Int)) else none
  | .nonNumber => none

/-- "An integer `x` with `0 <= x < 2^32`" (R69, R71, R76). -/
def asWord (x : HostScalar) : Option Word :=
  match asInteger x with
  | some n => if 0 ≤ n ∧ n < 4294967296 then some (BitVec.ofInt 32 n) else none
  | none => none

/-- A host object that claims to be a board (R71): what it exposes as buckets and as its length. -/
structure HostObject where
  buckets : List HostScalar
  length : HostScalar
  deriving DecidableEq, Repr

/-- The kinds BB attaches to `InvalidArgument` (R79). -/
inductive ErrorKind where
  | malformedBoard
  | malformedBoardString
  deriving DecidableEq, Repr

/-- An adapter error: a class of R79 and, for `InvalidArgument`, a kind. -/
structure AdapterError where
  cls : Status
  kind : Option ErrorKind
  deriving DecidableEq, Repr

/-- (`InvalidArgument`, `malformed-board`) (R69). -/
def malformedBoard : AdapterError := ⟨.invalidArgument, some .malformedBoard⟩

/-- (`InvalidArgument`, `malformed-board-string`) (R70). -/
def malformedBoardString : AdapterError := ⟨.invalidArgument, some .malformedBoardString⟩

/-- `OutOfRange` (R75, R76). -/
def argumentOutOfRange : AdapterError := ⟨.outOfRange, none⟩

/-- `NotABoard` (R77, by conflict C2). -/
def notABoard : AdapterError := ⟨.notABoard, none⟩

/-! ## Checks -/

/-- The two buckets of a host list: exactly two elements, each a `u32`. -/
def twoWords : List HostScalar → Option Board
  | [x, y] =>
    match asWord x, asWord y with
    | some h, some l => some ⟨h, l⟩
    | _, _ => none
  | _ => none

/-- The check of the array constructor (R69): the first element is `high` (R16). -/
def checkArray (xs : List HostScalar) : Except AdapterError Board :=
  match twoWords xs with
  | some b => .ok b
  | none => .error malformedBoard

/-- The value of a binary digit's character. -/
def binaryDigit (c : Char) : Nat := if c = '1' then 1 else 0

/-- `bin(t)` (R70): the binary numeral `t`, most significant digit first. -/
def bin (t : List Char) : Nat := t.foldl (fun n c => 2 * n + binaryDigit c) 0

/-- Every character is `'0'` or `'1'` and `1 <= L <= 64` (R70; the empty string by conflict C5). -/
def isBoardString (cs : List Char) : Bool :=
  cs.all (fun c => c == '0' || c == '1') && decide (1 ≤ cs.length) && decide (cs.length ≤ 64)

/-- The board of a binary string (R70): `low` is its last 32 characters, `high` the rest. -/
def parseBoard (cs : List Char) : Board :=
  if cs.length ≤ 32 then ⟨0, BitVec.ofNat 32 (bin cs)⟩
  else ⟨BitVec.ofNat 32 (bin (cs.take (cs.length - 32))),
        BitVec.ofNat 32 (bin (cs.drop (cs.length - 32)))⟩

/-- The check of the string constructor (R70). -/
def checkString (cs : List Char) : Except AdapterError Board :=
  if isBoardString cs then .ok (parseBoard cs) else .error malformedBoardString

/-- The shape check (R71): exactly two buckets, each a `u32`, and a length of 64. -/
def checkShape (o : HostObject) : Except AdapterError Board :=
  match twoWords o.buckets with
  | some b => if asInteger o.length = some 64 then .ok b else .error notABoard
  | none => .error notABoard

/-- The check of `get_index(n)` (R75). -/
def checkIndex (n : HostScalar) : Except AdapterError Int :=
  match asInteger n with
  | some k => if OutsideBoard k then .error argumentOutOfRange else .ok k
  | none => .error argumentOutOfRange

/-- The check and the clamp of `shift_left(n)`, `shift_right(n)` (R75): `min(n, 64)`. -/
def checkShift (n : HostScalar) : Except AdapterError Int :=
  match asInteger n with
  | some k => if k < 0 then .error argumentOutOfRange else .ok (min k 64)
  | none => .error argumentOutOfRange

/-- The check of the optional `value` of the offset operations (R76, by conflict C3). -/
def checkValue : Option HostScalar → Except AdapterError (Option Word)
  | none => .ok none
  | some x =>
    match asWord x with
    | some w => .ok (some w)
    | none => .error argumentOutOfRange

/-! ## Rendering (R72) -/

/-- A bucket as its 32-digit binary numeral, padded on the left. -/
def renderWord (w : Word) : List Char :=
  (List.range 32).map fun i => if w.getLsbD (31 - i) then '1' else '0'

/-- `to_binary_string` from the response of `BRD`: `high`, then `low`. -/
def render (high low : Word) : List Char := renderWord high ++ renderWord low

/-! ## The software interface (R78) -/

/-- All the registers an adapter can pick from (R9). -/
def allRegisters : List BReg := [.b0, .b1, .b2, .b3, .b4, .b5, .b6, .b7]

/-- The adapter's pick of a register different from those to avoid (R78): the register `d` that the
host would like, or, where that is one of them, the first of the eight that is not
(`notes/assumptions/13.md`). -/
def pickRegister (avoid : List BReg) (d : BReg) : BReg :=
  if avoid.contains d then (allRegisters.find? fun r => !avoid.contains r).getD d else d

/-- BB's "modify" flag (R78): true, the receiver is overwritten; absent or false, the adapter picks a
register, `d` if it may. -/
inductive Mode where
  | modify
  | fresh (d : BReg)
  deriving DecidableEq, Repr

/-- The second operand of a binary operation (R77): in a register already, or a host object that is
first loaded into a register, `t` if it may be. -/
inductive Operand where
  | register (t : BReg)
  | object (o : HostObject) (t : BReg)
  deriving DecidableEq, Repr

/-- The operations of BB's software interface, with the registers the host would like used for them
(R78). `s` is the receiver's register. `equal` is BB's `==` (R74). -/
inductive HostCall where
  | newZero (d : BReg)
  | newArray (d : BReg) (xs : List HostScalar)
  | newString (d : BReg) (cs : List Char)
  | getIndex (s : BReg) (n : HostScalar)
  | and (mode : Mode) (s : BReg) (other : Operand)
  | or (mode : Mode) (s : BReg) (other : Operand)
  | xor (mode : Mode) (s : BReg) (other : Operand)
  | not (mode : Mode) (s : BReg)
  | orAtOffset (mode : Mode) (s : BReg) (shift : HostScalar) (value : Option HostScalar)
  | xorAtOffset (mode : Mode) (s : BReg) (shift : HostScalar) (value : Option HostScalar)
  | shiftLeft (mode : Mode) (s : BReg) (n : HostScalar)
  | shiftRight (mode : Mode) (s : BReg) (n : HostScalar)
  | isEmpty (s : BReg)
  | toBinaryString (s : BReg)
  | copy (d : BReg) (source : Operand)
  | equal (d : BReg) (s : BReg) (other : Operand)
  | flipVertical (mode : Mode) (s : BReg)
  | flipDiagonal (mode : Mode) (s : BReg)
  | rotate180 (mode : Mode) (s : BReg)
  | rotate90Clockwise (mode : Mode) (s : BReg)
  deriving DecidableEq, Repr

/-- The destination register of an operation (R78): the receiver's, or one that is neither the
receiver's nor one of `others`, the register of the second operand. -/
def destination (mode : Mode) (s : BReg) (others : List BReg) : BReg :=
  match mode with
  | .modify => s
  | .fresh d => pickRegister (s :: others) d

/-- The register that holds an operand once it is placed. A host object is loaded into a register
other than those to avoid, the receiver's: its board must outlive the load (R77, R78). -/
def operandRegister (avoid : List BReg) : Operand → BReg
  | .register t => t
  | .object _ t => pickRegister avoid t

/-- The command that loads an operand into its register, if one is needed (R77). -/
def loadOperand (avoid : List BReg) : Operand → Except AdapterError (List Instr)
  | .register _ => .ok []
  | .object o t =>
    match checkShape o with
    | .ok b => .ok [.bld (pickRegister avoid t) b.high b.low]
    | .error e => .error e

/-- The commands of an operation with an operand `other`: load it if need be, then the operation's
commands, which `mk` makes from its register. -/
def issueWithOperand (avoid : List BReg) (mk : BReg → List Instr) (other : Operand) :
    Except AdapterError (List Instr) :=
  match loadOperand avoid other with
  | .ok load => .ok (load ++ mk (operandRegister avoid other))
  | .error e => .error e

/-- The commands of `and`, `or`, `xor` (R77, R78). -/
def issueBinary (op : BReg → BReg → BReg → Instr) (mode : Mode) (s : BReg) (other : Operand) :
    Except AdapterError (List Instr) :=
  issueWithOperand [s] (fun t => [op (destination mode s [t]) s t]) other

/-- The commands of `copy` (R74): the destination is not the source's register. -/
def issueCopy (d : BReg) (source : Operand) : Except AdapterError (List Instr) :=
  issueWithOperand [] (fun t => [.bcopy (pickRegister [t] d) t]) source

/-- The commands of an equality test (R74): `BXOR`, then `BEMP` of its result. The register between is
neither operand's, so that both keep their boards. -/
def issueEqual (d s : BReg) (other : Operand) : Except AdapterError (List Instr) :=
  issueWithOperand [s]
    (fun t => [.bxor (pickRegister [s, t] d) s t, .bemp (pickRegister [s, t] d)]) other

/-- The command of a constructor, once its check has passed. -/
def issueLoad (d : BReg) : Except AdapterError Board → Except AdapterError (List Instr)
  | .ok b => .ok [.bld d b.high b.low]
  | .error e => .error e

/-- The command of an operation with one checked integer argument. -/
def issueWithInt (mk : Int → Instr) : Except AdapterError Int → Except AdapterError (List Instr)
  | .ok n => .ok [mk n]
  | .error e => .error e

/-- The command of an offset operation (R76). -/
def issueOffset (mk : Int → Option Word → Instr) (shift : HostScalar) (value : Option HostScalar) :
    Except AdapterError (List Instr) :=
  match checkIndex shift, checkValue value with
  | .ok k, .ok v => .ok [mk k v]
  | .error e, _ => .error e
  | .ok _, .error e => .error e

/-- The adapter: the commands it issues for an operation, in order, or the error it raises before
issuing any (R68 to R78). -/
def issue : HostCall → Except AdapterError (List Instr)
  | .newZero d => .ok [.bzero d]
  | .newArray d xs => issueLoad d (checkArray xs)
  | .newString d cs => issueLoad d (checkString cs)
  | .getIndex s n => issueWithInt (.bget s) (checkIndex n)
  | .and mode s other => issueBinary .band mode s other
  | .or mode s other => issueBinary .bor mode s other
  | .xor mode s other => issueBinary .bxor mode s other
  | .not mode s => .ok [.bnot (destination mode s []) s]
  | .orAtOffset mode s shift value => issueOffset (.boro (destination mode s []) s) shift value
  | .xorAtOffset mode s shift value => issueOffset (.bxro (destination mode s []) s) shift value
  | .shiftLeft mode s n => issueWithInt (.bshl (destination mode s []) s) (checkShift n)
  | .shiftRight mode s n => issueWithInt (.bshr (destination mode s []) s) (checkShift n)
  | .isEmpty s => .ok [.bemp s]
  | .toBinaryString s => .ok [.brd s]
  | .copy d source => issueCopy d source
  | .equal d s other => issueEqual d s other
  | .flipVertical mode s => .ok [.bflv (destination mode s []) s]
  | .flipDiagonal mode s => .ok [.bfld (destination mode s []) s]
  | .rotate180 mode s => .ok [.br180 (destination mode s []) s]
  | .rotate90Clockwise mode s => .ok [.br90 (destination mode s []) s]

/-- What the caller gets back (R78). -/
inductive HostResult where
  | board (d : BReg)
  | bit (w : Word)
  | truth (b : Bool)
  | text (cs : List Char)
  deriving DecidableEq, Repr

/-- What the adapter returns to the caller from the response of the operation's last command (R78). -/
def resultOf (call : HostCall) (r : Response) : HostResult :=
  match call with
  | .newZero d => .board d
  | .newArray d _ => .board d
  | .newString d _ => .board d
  | .getIndex _ _ => .bit r.rl
  | .and mode s other => .board (destination mode s [operandRegister [s] other])
  | .or mode s other => .board (destination mode s [operandRegister [s] other])
  | .xor mode s other => .board (destination mode s [operandRegister [s] other])
  | .not mode s => .board (destination mode s [])
  | .orAtOffset mode s _ _ => .board (destination mode s [])
  | .xorAtOffset mode s _ _ => .board (destination mode s [])
  | .shiftLeft mode s _ => .board (destination mode s [])
  | .shiftRight mode s _ => .board (destination mode s [])
  | .isEmpty _ => .truth (r.rl == 1)
  | .toBinaryString _ => .text (render r.rh r.rl)
  | .copy d source => .board (pickRegister [operandRegister [] source] d)
  | .equal _ _ _ => .truth (r.rl == 1)
  | .flipVertical mode s => .board (destination mode s [])
  | .flipDiagonal mode s => .board (destination mode s [])
  | .rotate180 mode s => .board (destination mode s [])
  | .rotate90Clockwise mode s => .board (destination mode s [])

/-- Call an operation: the host presents the issued commands to the engine, or the error is raised
and nothing is presented (R78). -/
def invoke (call : HostCall) (s : State) : Except AdapterError State :=
  match issue call with
  | .ok is => .ok (present s (is.map encode))
  | .error e => .error e

end Sys2Proof.Machine
end

