-- ==== Sys2Proof/Machine/Assembler.lean ====
section
/-! DEFINITION. The assembler (`30_encoding.md` R32) and its pseudo-instructions (R33). What R32 leaves
open of the character level is fixed in `notes/assumptions/14.md`. -/

namespace Sys2Proof.Machine

/-! ## Operands and mnemonics -/

/-- An operand of an assembly line (R32, R33). -/
inductive AsmOperand where
  /-- `Bk` -/
  | reg (r : BReg)
  /-- `#n` -/
  | imm (n : Int)
  /-- a bare number: a data word -/
  | word (n : Nat)
  /-- `@n`: an index, of `BSET` and `BTGL` -/
  | index (n : Int)
  deriving DecidableEq, Repr

/-- A mnemonic: a command's (R32) or one of the pseudo-instructions with a name of its own (R33). -/
inductive AsmName where
  | op (o : Opcode)
  | bmov
  | bset
  | btgl
  deriving DecidableEq, Repr

/-- The mnemonics as they are written. -/
def mnemonicTable : List (List Char × AsmName) :=
  [("BZERO".toList, .op .bzero), ("BLD".toList, .op .bld), ("BCOPY".toList, .op .bcopy),
   ("BRD".toList, .op .brd), ("BAND".toList, .op .band), ("BOR".toList, .op .bor),
   ("BXOR".toList, .op .bxor), ("BNOT".toList, .op .bnot), ("BORO".toList, .op .boro),
   ("BXRO".toList, .op .bxro), ("BSHL".toList, .op .bshl), ("BSHR".toList, .op .bshr),
   ("BGET".toList, .op .bget), ("BEMP".toList, .op .bemp), ("BFLV".toList, .op .bflv),
   ("BFLD".toList, .op .bfld), ("BR180".toList, .op .br180), ("BR90".toList, .op .br90),
   ("BMOV".toList, .bmov), ("BSET".toList, .bset), ("BTGL".toList, .btgl)]

/-- The mnemonic a word spells. -/
def mnemonicOf (w : List Char) : Option AsmName :=
  match mnemonicTable.find? fun e => e.1 == w with
  | some e => some e.2
  | none => none

/-! ## From operands to a command (R32, R33) -/

/-- A data word: `0 .. 4294967295` (R32). -/
def dataWord (n : Nat) : Option Word :=
  if n < 4294967296 then some (BitVec.ofNat 32 n) else none

/-- `Bd`. -/
def oneRegForm (mk : BReg → Instr) : List AsmOperand → Option Instr
  | [.reg d] => some (mk d)
  | _ => none

/-- `Bd, Bs`. -/
def twoRegForm (mk : BReg → BReg → Instr) : List AsmOperand → Option Instr
  | [.reg d, .reg s] => some (mk d s)
  | _ => none

/-- `Bd, Bs`, or `Bd` for the in-place form (R33). -/
def unaryForm (mk : BReg → BReg → Instr) : List AsmOperand → Option Instr
  | [.reg d, .reg s] => some (mk d s)
  | [.reg d] => some (mk d d)
  | _ => none

/-- `Bd, Bs, Bt`, or `Bd, Bt` for the in-place form (R33). -/
def binaryForm (mk : BReg → BReg → BReg → Instr) : List AsmOperand → Option Instr
  | [.reg d, .reg s, .reg t] => some (mk d s t)
  | [.reg d, .reg t] => some (mk d d t)
  | _ => none

/-- `Bd, Bs, #n`, or `Bd, #n` for the in-place form (R33). -/
def shiftForm (mk : BReg → BReg → Int → Instr) : List AsmOperand → Option Instr
  | [.reg d, .reg s, .imm n] => some (mk d s n)
  | [.reg d, .imm n] => some (mk d d n)
  | _ => none

/-- `Bd, Bs, #shift[, value]`, or the same without `Bs` for the in-place form (R33). `V = 1` exactly
when a value is given (R27). -/
def offsetForm (mk : BReg → BReg → Int → Option Word → Instr) : List AsmOperand → Option Instr
  | [.reg d, .reg s, .imm n] => some (mk d s n none)
  | [.reg d, .reg s, .imm n, .word v] => (dataWord v).map fun w => mk d s n (some w)
  | [.reg d, .imm n] => some (mk d d n none)
  | [.reg d, .imm n, .word v] => (dataWord v).map fun w => mk d d n (some w)
  | _ => none

/-- `Bs, #n`. -/
def queryForm (mk : BReg → Int → Instr) : List AsmOperand → Option Instr
  | [.reg s, .imm n] => some (mk s n)
  | _ => none

/-- `Bd, high, low`. -/
def loadForm (mk : BReg → Word → Word → Instr) : List AsmOperand → Option Instr
  | [.reg d, .word h, .word l] =>
    match dataWord h, dataWord l with
    | some hw, some lw => some (mk d hw lw)
    | _, _ => none
  | _ => none

/-- `Bd, Bs, @n` of `BSET` and `BTGL` (R33): the shift is `63 - n`; other `n` are rejected. -/
def bitForm (mk : BReg → BReg → Int → Option Word → Instr) : List AsmOperand → Option Instr
  | [.reg d, .reg s, .index n] => if n < 0 ∨ n > 63 then none else some (mk d s (63 - n) none)
  | _ => none

/-- The command a mnemonic and its operands stand for, before the check of the immediate's range. -/
def expandLine (name : AsmName) (ops : List AsmOperand) : Option Instr :=
  match name with
  | .op .bzero => oneRegForm .bzero ops
  | .op .bld => loadForm .bld ops
  | .op .bcopy => twoRegForm .bcopy ops
  | .op .brd => oneRegForm .brd ops
  | .op .band => binaryForm .band ops
  | .op .bor => binaryForm .bor ops
  | .op .bxor => binaryForm .bxor ops
  | .op .bnot => unaryForm .bnot ops
  | .op .boro => offsetForm .boro ops
  | .op .bxro => offsetForm .bxro ops
  | .op .bshl => shiftForm .bshl ops
  | .op .bshr => shiftForm .bshr ops
  | .op .bget => queryForm .bget ops
  | .op .bemp => oneRegForm .bemp ops
  | .op .bflv => unaryForm .bflv ops
  | .op .bfld => unaryForm .bfld ops
  | .op .br180 => unaryForm .br180 ops
  | .op .br90 => unaryForm .br90 ops
  | .bmov => twoRegForm .bcopy ops
  | .bset => bitForm .boro ops
  | .btgl => bitForm .bxro ops

/-- The command of a mnemonic and its operands; a line whose immediate does not fit is rejected (R32). -/
def assembleOperands (name : AsmName) (ops : List AsmOperand) : Option Instr :=
  match expandLine name ops with
  | some i => if i.wellFormed then some i else none
  | none => none

/-! ## Characters -/

/-- Blank space inside a line. -/
def isBlank (c : Char) : Bool := c == ' ' || c == '\t' || c == '\r'

/-- The line without its comment: `;` starts one (R32). -/
def stripComment (cs : List Char) : List Char := cs.takeWhile (· != ';')

/-- The characters without leading and trailing blanks. -/
def trim (cs : List Char) : List Char :=
  ((cs.dropWhile isBlank).reverse.dropWhile isBlank).reverse

/-- Split at every occurrence of a character. -/
def splitAtChar (sep : Char) : List Char → List (List Char)
  | [] => [[]]
  | c :: cs =>
    if c = sep then [] :: splitAtChar sep cs
    else
      match splitAtChar sep cs with
      | [] => [[c]]
      | w :: ws => (c :: w) :: ws

/-- The value of a decimal digit. -/
def decimalDigit (c : Char) : Option Nat :=
  if 48 ≤ c.toNat ∧ c.toNat ≤ 57 then some (c.toNat - 48) else none

/-- The value of a hexadecimal digit, in either case. -/
def hexDigit (c : Char) : Option Nat :=
  if 97 ≤ c.toNat ∧ c.toNat ≤ 102 then some (c.toNat - 87)
  else if 65 ≤ c.toNat ∧ c.toNat ≤ 70 then some (c.toNat - 55)
  else decimalDigit c

/-- The numeral of at least one digit in a base, most significant digit first. -/
def numeral (base : Nat) (digit : Char → Option Nat) (acc : Nat) : List Char → Option Nat
  | [] => none
  | [c] => (digit c).map fun d => base * acc + d
  | c :: cs =>
    match digit c with
    | some d => numeral base digit (base * acc + d) cs
    | none => none

/-- A decimal or `0x` hexadecimal number (R32). -/
def natural (cs : List Char) : Option Nat :=
  match cs with
  | '0' :: 'x' :: ds => numeral 16 hexDigit 0 ds
  | _ => numeral 10 decimalDigit 0 cs

/-- A decimal integer, optionally negative, or a `0x` hexadecimal number (R32). -/
def integerOf (cs : List Char) : Option Int :=
  match cs with
  | '-' :: ds => (numeral 10 decimalDigit 0 ds).map fun n => -(n : Int)
  | _ => (natural cs).map fun n => (n : Int)

/-- The register `Bk`, `k = 0..7` (R32). -/
def registerOf (cs : List Char) : Option BReg :=
  match cs with
  | ['B', c] =>
    match decimalDigit c with
    | some k => if k < 8 then some (regOf (BitVec.ofNat 3 k)) else none
    | none => none
  | _ => none

/-- One operand (R32, R33). -/
def operandOf (cs : List Char) : Option AsmOperand :=
  match cs with
  | '#' :: ds => (integerOf ds).map .imm
  | '@' :: ds => (integerOf ds).map .index
  | _ =>
    match registerOf cs with
    | some r => some (.reg r)
    | none => (natural cs).map .word

/-- All operands of a line; none if one cannot be read. -/
def operandsOf : List (List Char) → Option (List AsmOperand)
  | [] => some []
  | w :: ws =>
    match operandOf (trim w), operandsOf ws with
    | some o, some os => some (o :: os)
    | _, _ => none

/-- Assemble one line: mnemonic, then operands separated by commas (R32). A line that is no command,
a blank one among them, gives none. -/
def assembleLine (line : List Char) : Option Instr :=
  let body := trim (stripComment line)
  let rest := body.dropWhile fun c => !isBlank c
  match mnemonicOf (body.takeWhile fun c => !isBlank c), operandsOf (splitAtChar ',' rest) with
  | some name, some ops => assembleOperands name ops
  | _, _ => none

/-- The line holds nothing but blanks and a comment. -/
def isEmptyLine (line : List Char) : Bool := (trim (stripComment line)).isEmpty

/-- Assemble a text of one command per line (R32); lines without a command are passed over. -/
def assembleLines : List (List Char) → Option (List Instr)
  | [] => some []
  | l :: ls =>
    if isEmptyLine l then assembleLines ls
    else
      match assembleLine l, assembleLines ls with
      | some i, some is => some (i :: is)
      | _, _ => none

end Sys2Proof.Machine
end

