-- ==== Sys2Proof/Machine/Networks.lean ====
section
/-! DEFINITION. The mask networks of the transforms (`45_transform.md` R63 to R65) and the half-word
forms of R58 and R60. The spec defines a transform by its permutation and gives the network as one way
to compute it (R57, N1); the commands use the permutation, and that the two agree is a statement. -/

namespace Sys2Proof.Machine

/-! ## Masks (R63, R64, R65; G1: from general knowledge by the spec's own mark) -/

/-- `V1`: rows 1, 3, 5, 7. -/
def maskV1 : Value := 0x00FF00FF00FF00FF

/-- `V2`: rows 2, 3, 6, 7. -/
def maskV2 : Value := 0x0000FFFF0000FFFF

/-- `H1`: columns 1, 3, 5, 7. -/
def maskH1 : Value := 0x5555555555555555

/-- `H2`: columns 2, 3, 6, 7. -/
def maskH2 : Value := 0x3333333333333333

/-- `H4`: columns 4 to 7. -/
def maskH4 : Value := 0x0F0F0F0F0F0F0F0F

/-- `DG1`: `R` even and `C` even. -/
def maskDG1 : Value := 0xAA00AA00AA00AA00

/-- `DG2`: `R` and `C` in {0, 1, 4, 5}. -/
def maskDG2 : Value := 0xCCCC0000CCCC0000

/-- `DG4`: `R <= 3` and `C <= 3`. -/
def maskDG4 : Value := 0xF0F0F0F000000000

/-! ## Rounds -/

/-- A swap round (R63, R64): `(shr64(x, s) & M) | shl64(x & M, s)`. -/
def swapRound (x m : Value) (s : Nat) : Value := (shr64 x s &&& m) ||| shl64 (x &&& m) s

/-- The last round of R63: exchange the two buckets. -/
def swapBuckets (x : Value) : Value := shr64 x 32 ||| shl64 x 32

/-- `exchange(x, M, s)` (R65): swap bit `k` with bit `k - s` for every `k` under the mask. -/
def exchange (x m : Value) (s : Nat) : Value :=
  let t := m &&& (x ^^^ shl64 x s)
  x ^^^ t ^^^ shr64 t s

/-- The two-sided 36 round the spec mentions after R65 (G2). -/
def exchange36TwoSided (x : Value) : Value :=
  let t := x ^^^ shl64 x 36
  x ^^^ (0xF0F0F0F00F0F0F0F &&& (t ^^^ shr64 x 36))

/-! ## Networks -/

/-- `flip_vertical` in three rounds (R63). -/
def flipVerticalNet (x : Value) : Value :=
  swapBuckets (swapRound (swapRound x maskV1 8) maskV2 16)

/-- The horizontal mirror in three rounds (R64, R62). -/
def mirrorNet (x : Value) : Value :=
  swapRound (swapRound (swapRound x maskH1 1) maskH2 2) maskH4 4

/-- `rotate_180` in six rounds (R64). -/
def rotate180Net (x : Value) : Value := flipVerticalNet (mirrorNet x)

/-- `flip_diagonal` in three exchange rounds (R65). -/
def flipDiagonalNet (x : Value) : Value :=
  exchange (exchange (exchange x maskDG4 36) maskDG2 18) maskDG1 9

/-! ## Half-word forms -/

/-- `bswap32(x)`: the four bytes of a word in reverse order (R58). -/
def bswap32 (x : Word) : Word :=
  x.extractLsb' 0 8 ++ x.extractLsb' 8 8 ++ x.extractLsb' 16 8 ++ x.extractLsb' 24 8

/-- `bitrev32(x)`: the 32 bits of a word in reverse order (R60). -/
def bitrev32 (x : Word) : Word := x.reverse

end Sys2Proof.Machine
end

