-- ==== Sys2Proof/Safety.lean ====
section
/-! DEFINITION. The terms in which claims speak of a command's outcome and of a safe run. -/

namespace Sys2Proof.Machine

/-- From `s` the command wrote the board `b` to `rd`, answered with it, and changed nothing else: every
other register and what the host still presents are unchanged, and the response port has exactly one
more response (R19, R31). -/
def WritesBoard (s : State) (rd : BReg) (b : Board) (t : State) : Prop :=
  readBoard t rd = b ∧ (∀ r, r ≠ rd → readBoard t r = readBoard s r) ∧ t.inputs = s.inputs ∧
    t.responses = s.responses ++ [⟨.ok, b.high, b.low⟩]

/-- From `s` the command answered `(0, h, l)` and changed no register (R31, R37, R55, R56). -/
def AnswersWords (s : State) (h l : Word) (t : State) : Prop :=
  (∀ r, readBoard t r = readBoard s r) ∧ t.inputs = s.inputs ∧
    t.responses = s.responses ++ [⟨.ok, h, l⟩]

/-- From `s` the command raised the error `e`: no register changed, and the one response carries the
class with both result words 0 (R81). -/
def RaisesError (s : State) (e : Status) (t : State) : Prop :=
  (∀ r, readBoard t r = readBoard s r) ∧ t.inputs = s.inputs ∧
    t.responses = s.responses ++ [⟨e, 0, 0⟩]

/-- A response the engine can produce (R31, R79): normal, `OutOfRange` or `IllegalCommand`, an error
with both result words 0. -/
def engineResponse (r : Response) : Bool :=
  match r.st with
  | .ok => true
  | .outOfRange => r.rh == 0 && r.rl == 0
  | .illegalCommand => r.rh == 0 && r.rl == 0
  | .invalidArgument => false
  | .notABoard => false

/-- Every response delivered since reset is one the engine can produce. -/
def onlyEngineResponses (s : State) : Bool := s.responses.all engineResponse

/-- "No error so far", accumulated from the responses as R82 says a model must. -/
def noErrorSoFar (s : State) : Bool := s.responses.all fun r => r.st == .ok

/-! ## A command word read by the tables of the spec

What follows reads a command word by R24, R25, R28 and R29 alone, without the decoder, so that claims
can hold the decoder against it. -/

/-- The opcode bits `CMD[31:26]` (R24). -/
def opBits (w : Word) : BitVec 6 := w.extractLsb' 26 6

/-- The register that `CMD[25:23]` names (R24). -/
def rdOf (c : Command) : BReg := regOf (c.cmd.extractLsb' 23 3)

/-- The register that `CMD[22:20]` names (R24). -/
def rs1Of (c : Command) : BReg := regOf (c.cmd.extractLsb' 20 3)

/-- The register that `CMD[19:17]` names (R24). -/
def rs2Of (c : Command) : BReg := regOf (c.cmd.extractLsb' 17 3)

/-- `imm = sint(CMD[15:0])` (R26). -/
def immBitsOf (w : Word) : Int := (w.extractLsb' 0 16).toInt

/-- The optional `value` that `CMD[16]` and `DL` give (R27). -/
def valueGiven (c : Command) : Option Word := if c.cmd.getLsbD 16 then some c.dl else none

/-- A row of the table of R28. -/
structure OpcodeRow where
  op : BitVec 6
  opcode : Opcode
  format : Format
  matchWord : Word
  maskWord : Word
  deriving DecidableEq, Repr

/-- The table of R28, as it stands there. -/
def opcodeTable : List OpcodeRow :=
  [⟨0x01, .bzero, .z, 0x04000000, 0xFC7FFFFF⟩, ⟨0x02, .bld, .d, 0x08000000, 0xFC7FFFFF⟩,
   ⟨0x03, .bcopy, .r2, 0x0C000000, 0xFC0FFFFF⟩, ⟨0x04, .brd, .s, 0x10000000, 0xFF8FFFFF⟩,
   ⟨0x08, .band, .r3, 0x20000000, 0xFC01FFFF⟩, ⟨0x09, .bor, .r3, 0x24000000, 0xFC01FFFF⟩,
   ⟨0x0A, .bxor, .r3, 0x28000000, 0xFC01FFFF⟩, ⟨0x0B, .bnot, .r2, 0x2C000000, 0xFC0FFFFF⟩,
   ⟨0x10, .boro, .o, 0x40000000, 0xFC0E0000⟩, ⟨0x11, .bxro, .o, 0x44000000, 0xFC0E0000⟩,
   ⟨0x18, .bshl, .i, 0x60000000, 0xFC0F0000⟩, ⟨0x19, .bshr, .i, 0x64000000, 0xFC0F0000⟩,
   ⟨0x20, .bget, .q, 0x80000000, 0xFF8F0000⟩, ⟨0x21, .bemp, .s, 0x84000000, 0xFF8FFFFF⟩,
   ⟨0x28, .bflv, .r2, 0xA0000000, 0xFC0FFFFF⟩, ⟨0x29, .bfld, .r2, 0xA4000000, 0xFC0FFFFF⟩,
   ⟨0x2A, .br180, .r2, 0xA8000000, 0xFC0FFFFF⟩, ⟨0x2B, .br90, .r2, 0xAC000000, 0xFC0FFFFF⟩]

/-- The fields of R24 besides the opcode. -/
inductive FieldName where
  | rd | rs1 | rs2 | v | imm16
  deriving DecidableEq, Repr

/-- The column `uses` of R25, less the opcode. -/
def formatUses : Format → List FieldName
  | .z => [.rd]
  | .d => [.rd]
  | .r2 => [.rd, .rs1]
  | .s => [.rs1]
  | .r3 => [.rd, .rs1, .rs2]
  | .o => [.rd, .rs1, .v, .imm16]
  | .i => [.rd, .rs1, .imm16]
  | .q => [.rs1, .imm16]

/-- A field of a command word is not zero (R24). -/
def fieldNonzero (w : Word) : FieldName → Bool
  | .rd => w.extractLsb' 23 3 != 0
  | .rs1 => w.extractLsb' 20 3 != 0
  | .rs2 => w.extractLsb' 17 3 != 0
  | .v => w.getLsbD 16
  | .imm16 => w.extractLsb' 0 16 != 0

/-- Some field the format does not use is not zero (R29, case (b)). -/
def someUnusedNonzero (fmt : Format) (w : Word) : Bool :=
  [FieldName.rd, .rs1, .rs2, .v, .imm16].any fun f => !(formatUses fmt).contains f && fieldNonzero w f

/-- The 46 unassigned opcode values, as the ranges of R29, case (a). -/
def unassignedOp (op : BitVec 6) : Bool :=
  let n := op.toNat
  decide (n = 0 ∨ (5 ≤ n ∧ n ≤ 7) ∨ (0x0C ≤ n ∧ n ≤ 0x0F) ∨ (0x12 ≤ n ∧ n ≤ 0x17) ∨
    (0x1A ≤ n ∧ n ≤ 0x1F) ∨ (0x22 ≤ n ∧ n ≤ 0x27) ∨ (0x2C ≤ n ∧ n ≤ 0x3F))

/-- The word's opcode is assigned and a field its format does not use is not zero (R29, case (b)). -/
def malformedWord (w : Word) : Bool :=
  opcodeTable.any fun row => row.op == opBits w && someUnusedNonzero row.format w

/-- The column "`OutOfRange` when" of R80. -/
def immediateOutOfRange (w : Word) : Bool :=
  let n := immBitsOf w
  if opBits w ∈ [0x10, 0x11, 0x20] then decide (n < 0 ∨ n > 63)
  else if opBits w ∈ [0x18, 0x19] then decide (n < 0)
  else false

/-- The class a command reports: the checks in the order of R83, each by R80. -/
def reportedStatus (w : Word) : Status :=
  if unassignedOp (opBits w) then .illegalCommand
  else if malformedWord w then .illegalCommand
  else if immediateOutOfRange w then .outOfRange
  else .ok

/-- Command words with opcode `op` run as the rule of the command says: a word that meets the row's
`match` and `mask` runs as the instruction `mk` reads from its fields, and any other word with this
opcode raises `IllegalCommand` and changes nothing (R28, R29, R30). -/
def RunsAs (op : BitVec 6) (matchWord maskWord : Word) (mk : Command → Instr) : Prop :=
  ∀ (c : Command) (rest : List HostInput) (s : State), s.inputs = .command c :: rest →
    opBits c.cmd = op →
    (c.cmd &&& maskWord = matchWord → step s = exec (mk c) (takeInput s rest)) ∧
    (c.cmd &&& maskWord ≠ matchWord →
      ∃ t, step s = .next t ∧ RaisesError (takeInput s rest) .illegalCommand t)

/-! ## The engine as a function of boards and commands (R5, R20) -/

/-- The boards after a list of commands executed one after the other on given boards, and their
responses in order. It looks at one command at a time, with nothing else presented or answered. -/
def replay : List Command → BoardFile → BoardFile × List Response
  | [], regs => (regs, [])
  | c :: cs, regs =>
    match execute c ⟨regs, [], []⟩ with
    | .next t => ((replay cs t.regs).1, t.responses ++ (replay cs t.regs).2)
    | .fault _ => (regs, [])
    | .refused _ => (regs, [])

/-! ## The host adapter's destinations -/

/-- The register `d` is one that BB's "modify" flag allows as destination (R78): true, the receiver's
register `s`; absent or false, one that is neither the receiver's nor one of `others`, the register of
the second operand. -/
def AllowedDestination (mode : Mode) (s : BReg) (others : List BReg) (d : BReg) : Prop :=
  match mode with
  | .modify => d = s
  | .fresh _ => d ≠ s ∧ d ∉ others

/-- The call issues the one command `i`. Presented to the engine in `st` and run, `i` completes: it
writes a board to `d`, answers with it and changes nothing else, and `d` is what the caller gets back
(R78). -/
def CallWrites (call : HostCall) (i : Instr) (d : BReg) (st : State) : Prop :=
  issue call = .ok [i] ∧ (∀ r, resultOf call r = .board d) ∧
    ∃ t b, core.run 1 (present st [encode i]) = .next t ∧ exec i st = .next t ∧ WritesBoard st d b t

/-- The number of set bits of a value (R57). -/
def setBits (v : Value) : Nat := (Finset.univ.filter fun k : Fin 64 => v.getLsbD k.val = true).card

end Sys2Proof.Machine
end

