-- ==== Sys2Proof/Certificates/Slice0/Obligations.lean ====
section
/-! DEFINITION. The statements. Each docstring names the rules of spec/ the statement formalises. -/

open Sys2Proof Sys2Proof.Machine

/-! ## Encoding and decoding (`30_encoding.md`) -/

/-- Decoding an encoded command gives it back, with every operand at every value the encoding admits
(R24 to R28; the round trip itself is this model's claim). -/
def Obligations.DecodeOfEncodeIsTheCommand : Prop :=
  ∀ i : Instr, i.wellFormed = true → decode (encode i) = .ok i

/-- Every legal command word has one meaning: encoding what it decodes to gives back all 32 bits of the
word, and what it decodes to can be encoded (R24 to R29). -/
def Obligations.EncodeOfDecodeIsTheCommandWord : Prop :=
  ∀ (c : Command) (i : Instr), decode c = .ok i → i.wellFormed = true ∧ (encode i).cmd = c.cmd

/-- R28: `op = CMD[31:26]` selects the command, a word is a given command exactly when
`CMD & mask == match` for that command's row, the mask covers `op` and exactly the fields the row's
format does not use, and no value of `op` outside the 18 is assigned. -/
def Obligations.DecoderTestsMatchAndMask : Prop :=
  (∀ row ∈ opcodeTable,
    (∀ o, opcodeOf row.op = some o ↔ o = row.opcode) ∧
    ∀ c : Command,
      ((∃ i, decode c = .ok i ∧ opcodeOfInstr i = row.opcode) ↔
        c.cmd &&& row.maskWord = row.matchWord) ∧
      (c.cmd &&& row.maskWord = row.matchWord ↔
        opBits c.cmd = row.op ∧ someUnusedNonzero row.format c.cmd = false)) ∧
  (∀ (c : Command) (i : Instr), decode c = .ok i →
    ∃ row ∈ opcodeTable, row.op = opBits c.cmd ∧ row.opcode = opcodeOfInstr i) ∧
  opcodeTable.length = 18 ∧
  ∀ op : BitVec 6, (∀ row ∈ opcodeTable, row.op ≠ op) → opcodeOf op = none

/-- R29: a command word raises `IllegalCommand` in exactly two cases, whatever the data words hold: its
`op` is in the listed ranges, or a field its format does not use is not zero; the all-zero and the
all-ones word are illegal. A data word that the format does not use is ignored: only `BLD` reads `DH`,
and only `BLD` and the offset commands with `V = 1` read `DL` (R25, R27). -/
def Obligations.IllegalCommandInExactlyTwoCases : Prop :=
  (∀ (c : Command) (rest : List HostInput) (s : State), s.inputs = .command c :: rest →
    ((∃ t, step s = .next t ∧ RaisesError (takeInput s rest) .illegalCommand t) ↔
      (unassignedOp (opBits c.cmd) = true ∨ malformedWord c.cmd = true))) ∧
  (∀ dh dl, (∃ e, decode ⟨0x00000000, dh, dl⟩ = .error e) ∧
    ∃ e, decode ⟨0xFFFFFFFF, dh, dl⟩ = .error e) ∧
  ∀ (w dh dl dh' dl' : Word) (s : State), opBits w ≠ 0x02 →
    execute ⟨w, dh, dl⟩ s = execute ⟨w, dh', dl⟩ s ∧
    ((opBits w ≠ 0x10 ∧ opBits w ≠ 0x11) ∨ w.getLsbD 16 = false →
      execute ⟨w, dh, dl⟩ s = execute ⟨w, dh', dl'⟩ s)

/-- Words of `30_encoding.md` section 9 decode to the commands they stand for, one of each format. -/
def Obligations.SpecEncodingExamplesDecode : Prop :=
  decode ⟨0x07800000, 1, 2⟩ = .ok (.bzero .b7) ∧
  decode ⟨0x08000000, 0x00000000, 0x00000081⟩ = .ok (.bld .b0 0 0x81) ∧
  decode ⟨0x0C800000, 0, 0⟩ = .ok (.bcopy .b1 .b0) ∧
  decode ⟨0x10300000, 0, 0⟩ = .ok (.brd .b3) ∧
  decode ⟨0x21020000, 0, 0⟩ = .ok (.band .b2 .b0 .b1) ∧
  decode ⟨0x40800007, 0, 0x81⟩ = .ok (.boro .b1 .b0 7 none) ∧
  decode ⟨0x40810007, 0, 0x81⟩ = .ok (.boro .b1 .b0 7 (some 0x81)) ∧
  decode ⟨0x6490FFFF, 0, 0⟩ = .ok (.bshr .b1 .b1 (-1)) ∧
  decode ⟨0x8000003F, 0, 0⟩ = .ok (.bget .b0 63) ∧
  decode ⟨0xAD200000, 0, 0⟩ = .ok (.br90 .b2 .b2)

/-! ## The step (R20, R30, R80 to R83) -/

/-- When the command presented next decodes to an instruction, a step takes it from the port and is
`exec` of it (R20, R30). -/
def Obligations.StepRunsTheDecodedCommand : Prop :=
  ∀ (c : Command) (rest : List HostInput) (s : State) (i : Instr), s.inputs = .command c :: rest →
    decode c = .ok i → step s = exec i { s with inputs := rest }

/-- R81: a command that reports an error changes no register, and its response is the class with both
result words 0. -/
def Obligations.FailedCommandChangesNothing : Prop :=
  ∀ (c : Command) (rest : List HostInput) (s : State), s.inputs = .command c :: rest →
    ∃ t r, step s = .next t ∧ t.responses = s.responses ++ [r] ∧
      (r.st ≠ .ok → t.regs = s.regs ∧ t.inputs = rest ∧ r.rh = 0 ∧ r.rl = 0)

/-- R80 and R83: the class a command reports is that of the first check that fails, in the order
unassigned opcode, nonzero unused field, range of the immediate; no other condition is an error, and an
error carries two zero result words. -/
def Obligations.StatusIsTheFirstFailingCheck : Prop :=
  ∀ (c : Command) (rest : List HostInput) (s : State), s.inputs = .command c :: rest →
    ∃ t r, step s = .next t ∧ t.responses = s.responses ++ [r] ∧ r.st = reportedStatus c.cmd ∧
      (r.st ≠ .ok → r.rh = 0 ∧ r.rl = 0)

/-- One command writes at most the one register its `rd` field names, and the queries, `BRD` and every
failing command write none (R19). -/
def Obligations.OneCommandWritesAtMostItsDestination : Prop :=
  ∀ (c : Command) (rest : List HostInput) (s : State), s.inputs = .command c :: rest →
    ∃ t, step s = .next t ∧ t.inputs = rest ∧
      (∀ r, r ≠ rdOf c → readBoard t r = readBoard s r) ∧
      (opBits c.cmd ∈ [0x04, 0x20, 0x21] ∨ reportedStatus c.cmd ≠ .ok →
        ∀ r, readBoard t r = readBoard s r)

/-- Every step answers a next state, and a step on a presented command takes that command and delivers
exactly one response after the earlier ones (R94, R96; the engine never stops). -/
def Obligations.EveryCommandIsAnsweredOnce : Prop :=
  (∀ s : State, ∃ t, step s = .next t) ∧
  ∀ (c : Command) (rest : List HostInput) (s : State), s.inputs = .command c :: rest →
    ∃ t r, step s = .next t ∧ t.inputs = rest ∧ t.responses = s.responses ++ [r]

/-- With nothing presented the engine is idle and its state does not change (R89). -/
def Obligations.IdleEngineKeepsItsState : Prop :=
  ∀ s : State, s.inputs = [] → step s = .next s

/-- R5: a command's result and response are a function of the board values and of the command alone;
the responses of earlier commands and what the host will present have no influence. -/
def Obligations.ResultDependsOnBoardsAndCommandOnly : Prop :=
  ∀ (c : Command) (s₁ s₂ : State), s₁.regs = s₂.regs →
    ∃ t₁ t₂ r, execute c s₁ = .next t₁ ∧ execute c s₂ = .next t₂ ∧ t₁.regs = t₂.regs ∧
      t₁.responses = s₁.responses ++ [r] ∧ t₂.responses = s₂.responses ++ [r]

/-! ## Reset and the machine as a whole (`70_reset_and_hazards.md`) -/

/-- R14: after reset every board register holds the zero board and no response is pending. -/
def Obligations.ResetHoldsZeroBoards : Prop :=
  (∀ r, readBoard State.reset r = ⟨0, 0⟩) ∧ State.reset.responses = []

/-- `RESET` in any state gives the reset state, and what the host presents after it remains (R90; that
it falls between commands is the model's choice, `notes/assumptions/3.md`). -/
def Obligations.ResetInputGivesTheResetState : Prop :=
  ∀ (rest : List HostInput) (s : State), s.inputs = .reset :: rest →
    ∃ t, step s = .next t ∧ (∀ r, readBoard t r = ⟨0, 0⟩) ∧ t.responses = [] ∧ t.inputs = rest

/-- Directly after reset `BRD` of any register answers the zero board, `BEMP` answers 1 and `BGET` at
any valid index answers 0 (R91). -/
def Obligations.EveryRegisterIsEmptyAfterReset : Prop :=
  ∀ r : BReg,
    (∃ t, exec (.brd r) State.reset = .next t ∧ t.responses = [⟨.ok, 0, 0⟩]) ∧
    (∃ t, exec (.bemp r) State.reset = .next t ∧ t.responses = [⟨.ok, 0, 1⟩]) ∧
    ∀ n : Int, 0 ≤ n → n ≤ 63 → ∃ t, exec (.bget r n) State.reset = .next t ∧
      t.responses = [⟨.ok, 0, 0⟩]

/-- The invariant of the response port: every response is normal, `OutOfRange` or `IllegalCommand`, an
error with both result words 0 (R31, R79); every step keeps it. -/
def Obligations.StepKeepsOnlyEngineResponses : Prop :=
  ∀ s t : State, onlyEngineResponses s = true → step s = .next t → onlyEngineResponses t = true

/-- The invariant of the response port holds at reset. -/
def Obligations.ResetHasOnlyEngineResponses : Prop := onlyEngineResponses State.reset = true

/-- Commands are executed one at a time in the order presented, and the `k`-th response answers the
`k`-th command (R20, R94): running as many steps as commands were presented leaves the boards and the
responses of the commands executed one after the other, and the `k`-th new response is the one its
command gives on the boards the earlier commands left. -/
def Obligations.RunAnswersEveryCommandInOrder : Prop :=
  ∀ (cs : List Command) (rest : List HostInput) (s : State),
    s.inputs = cs.map .command ++ rest →
    ∃ t, core.run cs.length s = .next t ∧ t.inputs = rest ∧
      t.regs = (replay cs s.regs).1 ∧
      t.responses = s.responses ++ (replay cs s.regs).2 ∧
      (replay cs s.regs).2.length = cs.length ∧
      ∀ (k : Nat) (hk : k < cs.length), ∃ r,
        t.responses[s.responses.length + k]? = some r ∧
        (replay [cs[k]] (replay (cs.take k) s.regs).1).2 = [r]

/-! ## The commands -/

/-- R34. -/
def Obligations.BzeroWritesTheZeroBoard : Prop :=
  (∀ (rd : BReg) (s : State), ∃ t, exec (.bzero rd) s = .next t ∧ WritesBoard s rd ⟨0, 0⟩ t) ∧
  RunsAs 0x01 0x04000000 0xFC7FFFFF fun c => .bzero (rdOf c)

/-- R35. -/
def Obligations.BldWritesTheDataWords : Prop :=
  (∀ (rd : BReg) (dh dl : Word) (s : State),
    ∃ t, exec (.bld rd dh dl) s = .next t ∧ WritesBoard s rd ⟨dh, dl⟩ t) ∧
  RunsAs 0x02 0x08000000 0xFC7FFFFF fun c => .bld (rdOf c) c.dh c.dl

/-- R36: the two registers hold equal boards afterwards, and a later write to one does not change the
other. -/
def Obligations.BcopyCopiesTheBoard : Prop :=
  (∀ (rd rs1 : BReg) (s : State),
    ∃ t, exec (.bcopy rd rs1) s = .next t ∧ WritesBoard s rd (readBoard s rs1) t ∧
      readBoard t rd = readBoard t rs1 ∧
      (rd ≠ rs1 → ∀ b, readBoard (writeBoard t rd b) rs1 = readBoard t rs1 ∧
        readBoard (writeBoard t rs1 b) rd = readBoard t rd)) ∧
  RunsAs 0x03 0x0C000000 0xFC0FFFFF fun c => .bcopy (rdOf c) (rs1Of c)

/-- R37. -/
def Obligations.BrdAnswersTheTwoBuckets : Prop :=
  (∀ (rs1 : BReg) (s : State), ∃ t, exec (.brd rs1) s = .next t ∧
    AnswersWords s (readBoard s rs1).high (readBoard s rs1).low t) ∧
  RunsAs 0x04 0x10000000 0xFF8FFFFF fun c => .brd (rs1Of c)

/-- R39. -/
def Obligations.BandWritesTheBucketwiseAnd : Prop :=
  (∀ (rd rs1 rs2 : BReg) (s : State), ∃ t, exec (.band rd rs1 rs2) s = .next t ∧
    WritesBoard s rd ⟨(readBoard s rs1).high &&& (readBoard s rs2).high,
      (readBoard s rs1).low &&& (readBoard s rs2).low⟩ t) ∧
  RunsAs 0x08 0x20000000 0xFC01FFFF fun c => .band (rdOf c) (rs1Of c) (rs2Of c)

/-- R40. -/
def Obligations.BorWritesTheBucketwiseOr : Prop :=
  (∀ (rd rs1 rs2 : BReg) (s : State), ∃ t, exec (.bor rd rs1 rs2) s = .next t ∧
    WritesBoard s rd ⟨(readBoard s rs1).high ||| (readBoard s rs2).high,
      (readBoard s rs1).low ||| (readBoard s rs2).low⟩ t) ∧
  RunsAs 0x09 0x24000000 0xFC01FFFF fun c => .bor (rdOf c) (rs1Of c) (rs2Of c)

/-- R41. -/
def Obligations.BxorWritesTheBucketwiseXor : Prop :=
  (∀ (rd rs1 rs2 : BReg) (s : State), ∃ t, exec (.bxor rd rs1 rs2) s = .next t ∧
    WritesBoard s rd ⟨(readBoard s rs1).high ^^^ (readBoard s rs2).high,
      (readBoard s rs1).low ^^^ (readBoard s rs2).low⟩ t) ∧
  RunsAs 0x0A 0x28000000 0xFC01FFFF fun c => .bxor (rdOf c) (rs1Of c) (rs2Of c)

/-- R42: each bucket is `0xFFFFFFFF` minus the old one. -/
def Obligations.BnotWritesTheComplement : Prop :=
  (∀ (rd rs1 : BReg) (s : State), ∃ t, exec (.bnot rd rs1) s = .next t ∧
    WritesBoard s rd ⟨0xFFFFFFFF - (readBoard s rs1).high, 0xFFFFFFFF - (readBoard s rs1).low⟩ t) ∧
  RunsAs 0x0B 0x2C000000 0xFC0FFFFF fun c => .bnot (rdOf c) (rs1Of c)

/-- R46: within `0 <= shift <= 63` the 64-bit value is ORed with `value * 2^shift` cut to 64 bits;
outside it the command raises `OutOfRange`. -/
def Obligations.BoroOrsTheContribution : Prop :=
  (∀ (rd rs1 : BReg) (shift : Int) (value : Option Word) (s : State),
    (0 ≤ shift → shift ≤ 63 → ∃ t b, exec (.boro rd rs1 shift value) s = .next t ∧
      WritesBoard s rd b t ∧
      valueOf b = valueOf (readBoard s rs1) |||
        ((match value with | none => 1 | some d => d.setWidth 64 : Value) <<< shift.toNat)) ∧
    (shift < 0 ∨ shift > 63 → ∃ t, exec (.boro rd rs1 shift value) s = .next t ∧
      RaisesError s .outOfRange t)) ∧
  RunsAs 0x10 0x40000000 0xFC0E0000 fun c => .boro (rdOf c) (rs1Of c) (immBitsOf c.cmd) (valueGiven c)

/-- R47: as R46 with XOR. -/
def Obligations.BxroXorsTheContribution : Prop :=
  (∀ (rd rs1 : BReg) (shift : Int) (value : Option Word) (s : State),
    (0 ≤ shift → shift ≤ 63 → ∃ t b, exec (.bxro rd rs1 shift value) s = .next t ∧
      WritesBoard s rd b t ∧
      valueOf b = valueOf (readBoard s rs1) ^^^
        ((match value with | none => 1 | some d => d.setWidth 64 : Value) <<< shift.toNat)) ∧
    (shift < 0 ∨ shift > 63 → ∃ t, exec (.bxro rd rs1 shift value) s = .next t ∧
      RaisesError s .outOfRange t)) ∧
  RunsAs 0x11 0x44000000 0xFC0E0000 fun c => .bxro (rdOf c) (rs1Of c) (immBitsOf c.cmd) (valueGiven c)

/-- R52: for `0 <= n` the value is multiplied by `2^n` modulo `2^64`; for `n < 0` the command raises
`OutOfRange`. -/
def Obligations.BshlShiftsTheWholeValueLeft : Prop :=
  (∀ (rd rs1 : BReg) (n : Int) (s : State),
    (0 ≤ n → ∃ t b, exec (.bshl rd rs1 n) s = .next t ∧ WritesBoard s rd b t ∧
      (valueOf b).toNat = (valueOf (readBoard s rs1)).toNat * 2 ^ n.toNat % 2 ^ 64) ∧
    (n < 0 → ∃ t, exec (.bshl rd rs1 n) s = .next t ∧ RaisesError s .outOfRange t)) ∧
  RunsAs 0x18 0x60000000 0xFC0F0000 fun c => .bshl (rdOf c) (rs1Of c) (immBitsOf c.cmd)

/-- R53: for `0 <= n` the value is divided by `2^n`, rounded down; for `n < 0` the command raises
`OutOfRange`. -/
def Obligations.BshrShiftsTheWholeValueRight : Prop :=
  (∀ (rd rs1 : BReg) (n : Int) (s : State),
    (0 ≤ n → ∃ t b, exec (.bshr rd rs1 n) s = .next t ∧ WritesBoard s rd b t ∧
      (valueOf b).toNat = (valueOf (readBoard s rs1)).toNat / 2 ^ n.toNat) ∧
    (n < 0 → ∃ t, exec (.bshr rd rs1 n) s = .next t ∧ RaisesError s .outOfRange t)) ∧
  RunsAs 0x19 0x64000000 0xFC0F0000 fun c => .bshr (rdOf c) (rs1Of c) (immBitsOf c.cmd)

/-- R55: within `0 <= n <= 63` the answer is value-bit `63 - n`; outside it the command raises
`OutOfRange`. -/
def Obligations.BgetAnswersTheBitAtTheIndex : Prop :=
  (∀ (rs1 : BReg) (n : Int) (s : State),
    (0 ≤ n → n ≤ 63 → ∃ t, exec (.bget rs1 n) s = .next t ∧
      AnswersWords s 0 (if (valueOf (readBoard s rs1)).getLsbD (63 - n.toNat) then 1 else 0) t) ∧
    (n < 0 ∨ n > 63 → ∃ t, exec (.bget rs1 n) s = .next t ∧ RaisesError s .outOfRange t)) ∧
  RunsAs 0x20 0x80000000 0xFF8F0000 fun c => .bget (rs1Of c) (immBitsOf c.cmd)

/-- R56: the answer is 1 exactly when the 64-bit value is 0. -/
def Obligations.BempAnswersWhetherTheBoardIsZero : Prop :=
  (∀ (rs1 : BReg) (s : State), ∃ t, exec (.bemp rs1) s = .next t ∧
    AnswersWords s 0 (if valueOf (readBoard s rs1) = 0 then 1 else 0) t) ∧
  RunsAs 0x21 0x84000000 0xFF8FFFFF fun c => .bemp (rs1Of c)

/-- R58: the content of square `(R, C)` goes to `(7 - R, C)`; in half-words, the halves are exchanged
and the bytes of each reversed. -/
def Obligations.BflvExchangesRows : Prop :=
  (∀ (rd rs1 : BReg) (s : State), ∃ t b, exec (.bflv rd rs1) s = .next t ∧ WritesBoard s rd b t ∧
    (∀ r c : Fin 8, idx (valueOf b) (8 * (7 - r.val) + c.val) =
      idx (valueOf (readBoard s rs1)) (8 * r.val + c.val)) ∧
    b = ⟨bswap32 (readBoard s rs1).low, bswap32 (readBoard s rs1).high⟩) ∧
  RunsAs 0x28 0xA0000000 0xFC0FFFFF fun c => .bflv (rdOf c) (rs1Of c)

/-- R59: the content of square `(R, C)` goes to `(7 - C, 7 - R)`, that of index `8*R + C` to index
`63 - 8*C - R`. -/
def Obligations.BfldReflectsInTheOtherDiagonal : Prop :=
  (∀ (rd rs1 : BReg) (s : State), ∃ t b, exec (.bfld rd rs1) s = .next t ∧ WritesBoard s rd b t ∧
    ∀ r c : Fin 8, idx (valueOf b) (63 - 8 * c.val - r.val) =
      idx (valueOf (readBoard s rs1)) (8 * r.val + c.val)) ∧
  RunsAs 0x29 0xA4000000 0xFC0FFFFF fun c => .bfld (rdOf c) (rs1Of c)

/-- R60: the bit at index `n` moves to index `63 - n`; it is the mirror and the vertical flip composed
in either order; in half-words, the halves are exchanged and the bits of each reversed. -/
def Obligations.Br180MovesIndexToSixtyThreeMinusIndex : Prop :=
  (∀ (rd rs1 : BReg) (s : State), ∃ t b, exec (.br180 rd rs1) s = .next t ∧ WritesBoard s rd b t ∧
    (∀ n, n ≤ 63 → idx (valueOf b) (63 - n) = idx (valueOf (readBoard s rs1)) n) ∧
    valueOf b = flipVertical (mirror (valueOf (readBoard s rs1))) ∧
    valueOf b = mirror (flipVertical (valueOf (readBoard s rs1))) ∧
    b = ⟨bitrev32 (readBoard s rs1).low, bitrev32 (readBoard s rs1).high⟩) ∧
  RunsAs 0x2A 0xA8000000 0xFC0FFFFF fun c => .br180 (rdOf c) (rs1Of c)

/-- R61: the content of square `(R, C)` goes to `(C, 7 - R)`, and the board written is the one `BFLD`
followed by an in-place `BFLV` writes. -/
def Obligations.Br90IsDiagonalThenVerticalFlip : Prop :=
  (∀ (rd rs1 : BReg) (s : State), ∃ t b, exec (.br90 rd rs1) s = .next t ∧ WritesBoard s rd b t ∧
    (∀ r c : Fin 8, idx (valueOf b) (8 * c.val + (7 - r.val)) =
      idx (valueOf (readBoard s rs1)) (8 * r.val + c.val)) ∧
    ∃ t₁ t₂, exec (.bfld rd rs1) s = .next t₁ ∧ exec (.bflv rd rd) t₁ = .next t₂ ∧
      readBoard t₂ rd = b) ∧
  RunsAs 0x2B 0xAC000000 0xFC0FFFFF fun c => .br90 (rdOf c) (rs1Of c)

/-! ## Rules and laws of the operations -/

/-- R7: index `n` is value-bit `63 - n`; below 32 it lies in `high` at `31 - n`, from 32 on in `low` at
`63 - n`. -/
def Obligations.IndexCountsFromTheMostSignificantBit : Prop :=
  ∀ (b : Board) (n : Nat), n ≤ 63 →
    idx (valueOf b) n = (valueOf b).getLsbD (63 - n) ∧
    (n < 32 → idx (valueOf b) n = b.high.getLsbD (31 - n)) ∧
    (32 ≤ n → idx (valueOf b) n = b.low.getLsbD (63 - n))

/-- R38: a bucket-wise operation equals the 64-bit operation, and in index terms acts on each index
alone. -/
def Obligations.BucketwiseIsBitwiseOnTheWholeValue : Prop :=
  ∀ a b : Board,
    valueOf (lanewise (· &&& ·) a b) = valueOf a &&& valueOf b ∧
    valueOf (lanewise (· ||| ·) a b) = valueOf a ||| valueOf b ∧
    valueOf (lanewise (· ^^^ ·) a b) = valueOf a ^^^ valueOf b ∧
    ∀ n, n ≤ 63 →
      idx (valueOf (lanewise (· &&& ·) a b)) n = (idx (valueOf a) n && idx (valueOf b) n) ∧
      idx (valueOf (lanewise (· ||| ·) a b)) n = (idx (valueOf a) n || idx (valueOf b) n) ∧
      idx (valueOf (lanewise (· ^^^ ·) a b)) n = (idx (valueOf a) n ^^ idx (valueOf b) n)

/-- R43: the complement is an involution, the four identity laws, and without the in-place mode the
operands keep their boards. -/
def Obligations.LogicLaws : Prop :=
  (∀ b : Board, complement (complement b) = b ∧
    lanewise (· &&& ·) b zeroBoard = zeroBoard ∧
    lanewise (· ||| ·) b zeroBoard = b ∧
    lanewise (· ^^^ ·) b b = zeroBoard ∧
    lanewise (· ^^^ ·) b zeroBoard = b) ∧
  (∀ (rd rs1 rs2 : BReg) (s : State), rd ≠ rs1 → rd ≠ rs2 →
    ∀ i ∈ [Instr.band rd rs1 rs2, .bor rd rs1 rs2, .bxor rd rs1 rs2, .bnot rd rs1],
      ∃ t, exec i s = .next t ∧ readBoard t rs1 = readBoard s rs1 ∧ readBoard t rs2 = readBoard s rs2)

/-- R44 and R45: the contribution is `(value * 2^shift) mod 2^64`, nothing is dropped unless
`shift > 32`, and the half-word form, given case by case, makes it. -/
def Obligations.OffsetLanesMakeTheContribution : Prop :=
  ∀ (value : Word) (shift : Nat), shift ≤ 63 →
    (offc value shift).toNat = value.toNat * 2 ^ shift % 2 ^ 64 ∧
    (shift ≤ 32 → value.toNat * 2 ^ shift < 2 ^ 64) ∧
    (shift = 0 → offcLanes value shift = ⟨0, value⟩) ∧
    (0 < shift → shift < 32 →
      offcLanes value shift = ⟨shr32 value (32 - shift), shl32 value shift⟩) ∧
    (shift = 32 → offcLanes value shift = ⟨value, 0⟩) ∧
    (32 < shift → offcLanes value shift = ⟨shl32 value (shift - 32), 0⟩) ∧
    valueOf (offcLanes value shift) = offc value shift

/-- "Set the bit at index `n`" is `BORO` by `63 - n` with the default value, and "toggle" is `BXRO`
(R33, R46, R47): no other index changes. -/
def Obligations.DefaultValueSetsAndTogglesOneIndex : Prop :=
  ∀ (rd rs1 : BReg) (n : Nat) (s : State), n ≤ 63 →
    (∃ t b, exec (.boro rd rs1 (63 - n) none) s = .next t ∧ WritesBoard s rd b t ∧
      ∀ m, m ≤ 63 →
        idx (valueOf b) m = (idx (valueOf (readBoard s rs1)) m || decide (m = n))) ∧
    (∃ t b, exec (.bxro rd rs1 (63 - n) none) s = .next t ∧ WritesBoard s rd b t ∧
      ∀ m, m ≤ 63 →
        idx (valueOf b) m = (idx (valueOf (readBoard s rs1)) m ^^ decide (m = n)))

/-- R48 and R50: the shifts in arithmetic, value-bit and index terms, for every `n >= 0`; both are 0
from 64 on, and zeros enter. -/
def Obligations.ShiftsMoveBitsAlongTheIndex : Prop :=
  ∀ (v : Value) (n : Nat),
    (shl64 v n).toNat = v.toNat * 2 ^ n % 2 ^ 64 ∧
    (shr64 v n).toNat = v.toNat / 2 ^ n ∧
    (64 ≤ n → shl64 v n = 0 ∧ shr64 v n = 0) ∧
    ∀ k, k ≤ 63 →
      (shl64 v n).getLsbD k = (decide (n ≤ k) && v.getLsbD (k - n)) ∧
      (shr64 v n).getLsbD k = (decide (k + n ≤ 63) && v.getLsbD (k + n)) ∧
      idx (shl64 v n) k = (decide (k + n ≤ 63) && idx v (k + n)) ∧
      idx (shr64 v n) k = (decide (n ≤ k) && idx v (k - n))

/-- R49 and R51: the half-word forms with the carry, case by case, equal the 64-bit shifts for every
`n >= 0`. -/
def Obligations.ShiftLanesCarryAcrossTheBoundary : Prop :=
  ∀ (b : Board) (n : Nat),
    valueOf (shlLanes b n) = shl64 (valueOf b) n ∧
    valueOf (shrLanes b n) = shr64 (valueOf b) n ∧
    (64 ≤ n → shlLanes b n = ⟨0, 0⟩ ∧ shrLanes b n = ⟨0, 0⟩) ∧
    (32 < n → n < 64 → shlLanes b n = ⟨shl32 b.low (n - 32), 0⟩ ∧
      shrLanes b n = ⟨0, shr32 b.high (n - 32)⟩) ∧
    (n ≤ 32 →
      shlLanes b n =
        ⟨shl32 b.high n ||| shr32 (b.low &&& BitVec.ofNat 32 (2 ^ 32 - 2 ^ (32 - n))) (32 - n),
          shl32 b.low n⟩ ∧
      shrLanes b n =
        ⟨shr32 b.high n, shr32 b.low n ||| shl32 (b.high &&& BitVec.ofNat 32 (2 ^ n - 1)) (32 - n)⟩) ∧
    (n = 0 → shlLanes b n = b ∧ shrLanes b n = b) ∧
    (n = 32 → shlLanes b n = ⟨b.low, 0⟩ ∧ shrLanes b n = ⟨0, b.high⟩)

/-- R54: the laws of the shifts. -/
def Obligations.ShiftLaws : Prop :=
  ∀ b : Board,
    isEmpty (shlLanes b 64) = true ∧ isEmpty (shrLanes b 64) = true ∧
    shlLanes b 0 = b ∧ shrLanes b 0 = b ∧
    (∀ m n, shlLanes (shlLanes b m) n = shlLanes b (m + n) ∧
      shrLanes (shrLanes b m) n = shrLanes b (m + n)) ∧
    ∀ n k, k ≤ 63 → (valueOf (shrLanes (shlLanes b n) n)).getLsbD k =
      (decide (k + n ≤ 63) && (valueOf b).getLsbD k)

/-- R57: a grid transform by a bijection of the squares moves the content of every square to its image,
preserves the number of set bits, and keeps the zero and the all-ones board. -/
def Obligations.GridTransformPermutesSquares : Prop :=
  ∀ p : Square → Square, Function.Bijective p →
    (∀ (v : Value) (q : Square),
      idx (gridTransform v p) (squareIndex (p q)) = idx v (squareIndex q)) ∧
    (∀ v : Value, setBits (gridTransform v p) = setBits v) ∧
    gridTransform 0 p = 0 ∧
    gridTransform 0xFFFFFFFFFFFFFFFF p = 0xFFFFFFFFFFFFFFFF

/-- The three rounds of R63 compute the vertical flip. -/
def Obligations.FlipVerticalNetworkIsThePermutation : Prop :=
  ∀ v : Value, flipVerticalNet v = flipVertical v

/-- The first three rounds of R64 compute the horizontal mirror, and all six, in either group order,
the 180 degree rotation. -/
def Obligations.Rotate180NetworkIsThePermutation : Prop :=
  ∀ v : Value, mirrorNet v = mirror v ∧ rotate180Net v = rotate180 v ∧
    mirrorNet (flipVerticalNet v) = rotate180 v

/-- The three exchange rounds of R65 compute the diagonal flip, in any order of the rounds, and each
round is its own inverse. -/
def Obligations.FlipDiagonalNetworkIsThePermutation : Prop :=
  ∀ v : Value, flipDiagonalNet v = flipDiagonal v ∧
    (∀ o ∈ [[(maskDG4, 36), (maskDG2, 18), (maskDG1, 9)], [(maskDG4, 36), (maskDG1, 9), (maskDG2, 18)],
        [(maskDG2, 18), (maskDG4, 36), (maskDG1, 9)], [(maskDG2, 18), (maskDG1, 9), (maskDG4, 36)],
        [(maskDG1, 9), (maskDG4, 36), (maskDG2, 18)], [(maskDG1, 9), (maskDG2, 18), (maskDG4, 36)]],
      o.foldl (fun x r => exchange x r.1 r.2) v = flipDiagonal v) ∧
    (∀ r ∈ [(maskDG4, 36), (maskDG2, 18), (maskDG1, 9)], exchange (exchange v r.1 r.2) r.1 r.2 = v)

/-- R67: the laws of the transforms. -/
def Obligations.TransformLaws : Prop :=
  (∀ v : Value,
    flipVertical (flipVertical v) = v ∧ flipDiagonal (flipDiagonal v) = v ∧
    mirror (mirror v) = v ∧ rotate180 (rotate180 v) = v ∧
    rotate180 v = mirror (flipVertical v) ∧ rotate180 v = flipVertical (mirror v) ∧
    rotate90 v = flipVertical (flipDiagonal v) ∧
    rotate90 (rotate90 v) = rotate180 v ∧ rotate90 (rotate90 (rotate90 (rotate90 v))) = v ∧
    flipDiagonal (flipVertical v) = gridTransform v (fun q => (7 - q.2, q.1)) ∧
    rotate90 (flipDiagonal (flipVertical v)) = v ∧ flipDiagonal (flipVertical (rotate90 v)) = v) ∧
  ∀ f ∈ [flipVertical, flipDiagonal, mirror, rotate180, rotate90], ∀ a b : Value,
    f (~~~a) = ~~~(f a) ∧ f (a &&& b) = f a &&& f b ∧ f (a ||| b) = f a ||| f b ∧
    f (a ^^^ b) = f a ^^^ f b

/-! ## The host adapter (`46_host_adapter.md`) -/

/-- R69: a list of exactly two integers in `[0, 2^32)` is loaded by `BLD`, `high` first; every other
list is (`InvalidArgument`, `malformed-board`). -/
def Obligations.ArrayConstructorLoadsTwoWords : Prop :=
  ∀ (d : BReg) (xs : List HostScalar),
    (∀ x y h l, xs = [x, y] → asInteger x = some h → asInteger y = some l →
      0 ≤ h → h < 2 ^ 32 → 0 ≤ l → l < 2 ^ 32 →
      issue (.newArray d xs) = .ok [.bld d (BitVec.ofInt 32 h) (BitVec.ofInt 32 l)]) ∧
    ((¬ ∃ x y h l, xs = [x, y] ∧ asInteger x = some h ∧ asInteger y = some l ∧
        0 ≤ h ∧ h < 2 ^ 32 ∧ 0 ≤ l ∧ l < 2 ^ 32) →
      issue (.newArray d xs) = .error ⟨.invalidArgument, some .malformedBoard⟩)

/-- R70: a string of 1 to 64 characters `0` and `1` is loaded by `BLD` as its binary numeral, cut at
the last 32 characters; every other string is (`InvalidArgument`, `malformed-board-string`). -/
def Obligations.StringConstructorReadsABinaryNumeral : Prop :=
  ∀ (d : BReg) (cs : List Char),
    ((∀ c ∈ cs, c = '0' ∨ c = '1') → 1 ≤ cs.length → cs.length ≤ 64 →
      ∃ b : Board, issue (.newString d cs) = .ok [.bld d b.high b.low] ∧
        (cs.length ≤ 32 → b.high = 0 ∧ b.low.toNat = bin cs) ∧
        (32 < cs.length → b.high.toNat = bin (cs.take (cs.length - 32)) ∧
          b.low.toNat = bin (cs.drop (cs.length - 32))) ∧
        (valueOf b).toNat = bin cs) ∧
    (¬((∀ c ∈ cs, c = '0' ∨ c = '1') ∧ 1 ≤ cs.length ∧ cs.length ≤ 64) →
      issue (.newString d cs) = .error ⟨.invalidArgument, some .malformedBoardString⟩)

/-- R72 and R73: the rendering lists the 64 indices in order; constructing a board from it gives the
board back; rendering the board of a string pads the string with `0` on the left to 64. -/
def Obligations.RenderingRoundTrip : Prop :=
  (∀ b : Board, (render b.high b.low).length = 64 ∧
    (∀ n, n ≤ 63 → (render b.high b.low)[n]? = some (if idx (valueOf b) n then '1' else '0')) ∧
    checkString (render b.high b.low) = .ok b) ∧
  (∀ (cs : List Char) (b : Board), checkString cs = .ok b →
    render b.high b.low = List.replicate (64 - cs.length) '0' ++ cs) ∧
  ∀ (r : BReg) (s : State), ∃ t rsp, issue (.toBinaryString r) = .ok [.brd r] ∧
    exec (.brd r) s = .next t ∧ t.responses = s.responses ++ [rsp] ∧
    resultOf (.toBinaryString r) rsp = .text (render (readBoard s r).high (readBoard s r).low)

/-- R75: an index that is an integer in `[0, 64)` and a shift that is an integer from 0 on are issued,
the shift as `min(n, 64)`, which gives the same board as `n`, into a register that the "modify" flag
allows (R78); every other is `OutOfRange`. -/
def Obligations.AdapterChecksIndexAndShift : Prop :=
  (∀ (s : BReg) (x : HostScalar) (n : Int), asInteger x = some n → 0 ≤ n → n < 64 →
    issue (.getIndex s x) = .ok [.bget s n]) ∧
  (∀ (s : BReg) (x : HostScalar), (¬ ∃ n, asInteger x = some n ∧ 0 ≤ n ∧ n < 64) →
    issue (.getIndex s x) = .error ⟨.outOfRange, none⟩) ∧
  (∀ (m : Mode) (s : BReg) (x : HostScalar) (n : Int), asInteger x = some n → 0 ≤ n →
    (∃ d, AllowedDestination m s [] d ∧
      issue (.shiftLeft m s x) = .ok [.bshl d s (min n 64)] ∧
      issue (.shiftRight m s x) = .ok [.bshr d s (min n 64)]) ∧
    ∀ b, shlLanes b (min n 64).toNat = shlLanes b n.toNat ∧
      shrLanes b (min n 64).toNat = shrLanes b n.toNat) ∧
  (∀ (m : Mode) (s : BReg) (x : HostScalar), (¬ ∃ n, asInteger x = some n ∧ 0 ≤ n) →
    issue (.shiftLeft m s x) = .error ⟨.outOfRange, none⟩ ∧
    issue (.shiftRight m s x) = .error ⟨.outOfRange, none⟩)

/-- R76: an integer shift in `[0, 64)` with no value, or with an integer value in `[0, 2^32)`, is
issued, into a register that the "modify" flag allows (R78); a bad shift or a bad value is
`OutOfRange`, whatever the other argument is. -/
def Obligations.AdapterChecksOffsetArguments : Prop :=
  (∀ (m : Mode) (s : BReg) (x : HostScalar) (k : Int), asInteger x = some k → 0 ≤ k → k < 64 →
    ∃ d, AllowedDestination m s [] d ∧
      issue (.orAtOffset m s x none) = .ok [.boro d s k none] ∧
      issue (.xorAtOffset m s x none) = .ok [.bxro d s k none] ∧
      ∀ (y : HostScalar) (v : Int), asInteger y = some v → 0 ≤ v → v < 2 ^ 32 →
        issue (.orAtOffset m s x (some y)) = .ok [.boro d s k (some (BitVec.ofInt 32 v))] ∧
        issue (.xorAtOffset m s x (some y)) = .ok [.bxro d s k (some (BitVec.ofInt 32 v))]) ∧
  (∀ (m : Mode) (s : BReg) (x : HostScalar) (value : Option HostScalar),
    ((¬ ∃ k, asInteger x = some k ∧ 0 ≤ k ∧ k < 64) ∨
      (∃ y, value = some y ∧ ¬ ∃ v, asInteger y = some v ∧ 0 ≤ v ∧ v < 2 ^ 32)) →
    issue (.orAtOffset m s x value) = .error ⟨.outOfRange, none⟩ ∧
    issue (.xorAtOffset m s x value) = .error ⟨.outOfRange, none⟩)

/-- A host object is an operand of `and`, `or`, `xor` only if it exposes exactly two buckets, each an
integer in `[0, 2^32)`, and a length of 64 (R71), and is then loaded first; else the error is
`NotABoard` (R77). A board in a register needs no check. The destination is one that the "modify" flag
allows (R78). That the register `u` of the load is not the receiver's, and is the host's `t` where that
is not the receiver's, is the model's choice: `notes/assumptions/13.md`. -/
def Obligations.ForeignOperandIsNotABoard : Prop :=
  (∀ (m : Mode) (s t : BReg) (o : HostObject),
    (∀ x y h l, o.buckets = [x, y] → asInteger x = some h → asInteger y = some l →
      0 ≤ h → h < 2 ^ 32 → 0 ≤ l → l < 2 ^ 32 → asInteger o.length = some 64 →
      ∃ u d, u ≠ s ∧ (t ≠ s → u = t) ∧ AllowedDestination m s [u] d ∧
        let load : Instr := .bld u (BitVec.ofInt 32 h) (BitVec.ofInt 32 l)
        issue (.and m s (.object o t)) = .ok [load, .band d s u] ∧
        issue (.or m s (.object o t)) = .ok [load, .bor d s u] ∧
        issue (.xor m s (.object o t)) = .ok [load, .bxor d s u]) ∧
    ((¬ ∃ x y h l, o.buckets = [x, y] ∧ asInteger x = some h ∧ asInteger y = some l ∧
        0 ≤ h ∧ h < 2 ^ 32 ∧ 0 ≤ l ∧ l < 2 ^ 32 ∧ asInteger o.length = some 64) →
      issue (.and m s (.object o t)) = .error ⟨.notABoard, none⟩ ∧
      issue (.or m s (.object o t)) = .error ⟨.notABoard, none⟩ ∧
      issue (.xor m s (.object o t)) = .error ⟨.notABoard, none⟩)) ∧
  (∀ (m : Mode) (s t : BReg), ∃ d, AllowedDestination m s [t] d ∧
    issue (.and m s (.register t)) = .ok [.band d s t] ∧
    issue (.or m s (.register t)) = .ok [.bor d s t] ∧
    issue (.xor m s (.register t)) = .ok [.bxor d s t])

/-- BB's "modify" flag chooses the destination (R78). Each operation with the flag issues the command
of R78's table, with a destination `d` that the flag allows; once it has run, `d` holds the board it
answered with and no other register has changed, so that with the flag the receiver is overwritten, and
without it the receiver and an operand in a register keep their boards. A host object is loaded first,
and then only its register and `d` have changed. That the register picked without the flag is the one
the host names where that is allowed, and that the load goes to `operandRegister`, which is not the
receiver's, is the model's choice: `notes/assumptions/13.md`. -/
def Obligations.ModifyFlagChoosesTheDestination : Prop :=
  (∀ (m : Mode) (s : BReg) (st : State), st.inputs = [] →
    ∃ d, AllowedDestination m s [] d ∧ (∀ p, m = .fresh p → p ≠ s → d = p) ∧
      (∀ ci ∈ [(HostCall.not m s, Instr.bnot d s), (.flipVertical m s, .bflv d s),
          (.flipDiagonal m s, .bfld d s), (.rotate180 m s, .br180 d s),
          (.rotate90Clockwise m s, .br90 d s)], CallWrites ci.1 ci.2 d st) ∧
      (∀ x n, checkShift x = .ok n →
        CallWrites (.shiftLeft m s x) (.bshl d s n) d st ∧
        CallWrites (.shiftRight m s x) (.bshr d s n) d st) ∧
      ∀ x y k v, checkIndex x = .ok k → checkValue y = .ok v →
        CallWrites (.orAtOffset m s x y) (.boro d s k v) d st ∧
        CallWrites (.xorAtOffset m s x y) (.bxro d s k v) d st) ∧
  (∀ (m : Mode) (s q : BReg) (st : State), st.inputs = [] →
    ∃ d, AllowedDestination m s [q] d ∧ (∀ p, m = .fresh p → p ≠ s → p ≠ q → d = p) ∧
      CallWrites (.and m s (.register q)) (.band d s q) d st ∧
      CallWrites (.or m s (.register q)) (.bor d s q) d st ∧
      CallWrites (.xor m s (.register q)) (.bxor d s q) d st) ∧
  ∀ (m : Mode) (s q : BReg) (o : HostObject) (ob : Board) (st : State), st.inputs = [] →
    checkShape o = .ok ob →
    let w := operandRegister [s] (.object o q)
    let load := Instr.bld w ob.high ob.low
    w ≠ s ∧ (q ≠ s → w = q) ∧
    ∃ d, AllowedDestination m s [w] d ∧ (∀ p, m = .fresh p → p ≠ s → p ≠ w → d = p) ∧
      ∀ ci ∈ [(HostCall.and m s (.object o q), Instr.band d s w),
          (.or m s (.object o q), .bor d s w), (.xor m s (.object o q), .bxor d s w)],
        issue ci.1 = .ok [load, ci.2] ∧ (∀ r, resultOf ci.1 r = .board d) ∧
        ∃ u t b, core.run 2 (present st [encode load, encode ci.2]) = .next t ∧
          exec load st = .next u ∧ WritesBoard st w ob u ∧
          exec ci.2 u = .next t ∧ WritesBoard u d b t ∧
          (m ≠ .modify → readBoard t s = readBoard st s)

/-- Every operation whose checks pass completes (R78): the commands the adapter issues are all legal,
one response comes for each, and none of them is an error. -/
def Obligations.IssuedCommandsAllComplete : Prop :=
  ∀ (call : HostCall) (is : List Instr) (s : State), issue call = .ok is → s.inputs = [] →
    noErrorSoFar s = true →
    ∃ t, core.run is.length (present s (is.map encode)) = .next t ∧ t.inputs = [] ∧
      t.responses.length = s.responses.length + is.length ∧ noErrorSoFar t = true

/-- The equality test of R74: `BXOR Bd, Bs, Bt` then `BEMP Bd` answers 1 exactly when the two boards
are equal. -/
def Obligations.XorThenEmptyTestsEquality : Prop :=
  ∀ (d r q : BReg) (s : State),
    ∃ t u, exec (.bxor d r q) s = .next t ∧ exec (.bemp d) t = .next u ∧
      u.responses.getLast? =
        some ⟨.ok, 0, if readBoard s r = readBoard s q then 1 else 0⟩

/-- `copy()` goes to a register other than the source's, and a comparison answers true exactly when
both buckets of the two boards are equal, that is when the 64-bit values are (R74). That the comparison
leaves both boards as they were is the model's choice: `notes/assumptions/13.md`. -/
def Obligations.CopyAndComparisonOfBoards : Prop :=
  (∀ (d s : BReg) (st : State), ∃ u t, u ≠ s ∧ issue (.copy d (.register s)) = .ok [.bcopy u s] ∧
    (∀ r, resultOf (.copy d (.register s)) r = .board u) ∧ exec (.bcopy u s) st = .next t ∧
    readBoard t u = readBoard st s ∧ readBoard t s = readBoard st s) ∧
  (∀ a b : Board, (a.high = b.high ∧ a.low = b.low) ↔ valueOf a = valueOf b) ∧
  ∀ (d s q : BReg) (st : State), ∃ u t₁ t₂ r₁ r₂,
    issue (.equal d s (.register q)) = .ok [.bxor u s q, .bemp u] ∧
    exec (.bxor u s q) st = .next t₁ ∧ exec (.bemp u) t₁ = .next t₂ ∧
    t₂.responses = st.responses ++ [r₁, r₂] ∧
    resultOf (.equal d s (.register q)) r₂ =
      .truth (decide (valueOf (readBoard st s) = valueOf (readBoard st q))) ∧
    readBoard t₂ s = readBoard st s ∧ readBoard t₂ q = readBoard st q

/-! ## The assembler (`30_encoding.md` section 8) -/

/-- Every pseudo-instruction has its exact expansion, and `BSET` rejects an index outside `0..63`
(R33). That `BTGL` rejects one too, and that a data word of 2^32 or more rejects the line, is the
model's choice: `notes/assumptions/14.md`. An immediate that does not fit rejects the line (R32). -/
def Obligations.PseudoInstructionsExpand : Prop :=
  (∀ d s : BReg, assembleOperands .bmov [.reg d, .reg s] = some (.bcopy d s)) ∧
  (∀ (d s : BReg) (n : Int), 0 ≤ n → n ≤ 63 →
    assembleOperands .bset [.reg d, .reg s, .index n] = some (.boro d s (63 - n) none) ∧
    assembleOperands .btgl [.reg d, .reg s, .index n] = some (.bxro d s (63 - n) none)) ∧
  (∀ (d s : BReg) (n : Int), n < 0 ∨ n > 63 →
    assembleOperands .bset [.reg d, .reg s, .index n] = none ∧
    assembleOperands .btgl [.reg d, .reg s, .index n] = none) ∧
  (∀ om ∈ [(Opcode.bnot, Instr.bnot), (.bflv, .bflv), (.bfld, .bfld), (.br180, .br180), (.br90, .br90)],
    ∀ d : BReg,
      assembleOperands (.op om.1) [.reg d] = some (om.2 d d) ∧
      assembleOperands (.op om.1) [.reg d, .reg d] = some (om.2 d d)) ∧
  (∀ om ∈ [(Opcode.bshl, Instr.bshl), (.bshr, .bshr)], ∀ (d : BReg) (n : Int),
    ∀ line ∈ [[AsmOperand.reg d, .imm n], [.reg d, .reg d, .imm n]],
      (-32768 ≤ n → n ≤ 32767 → assembleOperands (.op om.1) line = some (om.2 d d n)) ∧
      (n < -32768 ∨ n > 32767 → assembleOperands (.op om.1) line = none)) ∧
  (∀ om ∈ [(Opcode.boro, Instr.boro), (.bxro, .bxro)], ∀ (d : BReg) (n : Int) (v : Nat),
    (∀ line ∈ [[AsmOperand.reg d, .imm n], [.reg d, .reg d, .imm n]],
      (-32768 ≤ n → n ≤ 32767 → assembleOperands (.op om.1) line = some (om.2 d d n none)) ∧
      (n < -32768 ∨ n > 32767 → assembleOperands (.op om.1) line = none)) ∧
    ∀ line ∈ [[AsmOperand.reg d, .imm n, .word v], [.reg d, .reg d, .imm n, .word v]],
      (-32768 ≤ n → n ≤ 32767 → v < 2 ^ 32 →
        assembleOperands (.op om.1) line = some (om.2 d d n (some (BitVec.ofNat 32 v)))) ∧
      (n < -32768 ∨ n > 32767 ∨ 2 ^ 32 ≤ v → assembleOperands (.op om.1) line = none)) ∧
  (∀ om ∈ [(Opcode.band, Instr.band), (.bor, .bor), (.bxor, .bxor)], ∀ d t : BReg,
    assembleOperands (.op om.1) [.reg d, .reg t] = some (om.2 d d t) ∧
    assembleOperands (.op om.1) [.reg d, .reg d, .reg t] = some (om.2 d d t))
end

