-- ==== Sys2Proof/Laws/Adapter.lean ====
section
/-! SUPPORT. What the host adapter's pick of a register does, and the commands a placed operand
takes. -/

namespace Sys2Proof.Machine

theorem pickRegister_of_allowed {avoid : List BReg} {d : BReg} (h : d ∉ avoid) :
    pickRegister avoid d = d := by simp [pickRegister, h]

/-- One register to avoid: the pick is another. -/
theorem pickRegister_ne (s d : BReg) : pickRegister [s] d ≠ s := by
  cases s <;> cases d <;> decide

/-- Two registers to avoid: the pick is neither. -/
theorem pickRegister_ne_both (s t d : BReg) :
    pickRegister [s, t] d ≠ s ∧ pickRegister [s, t] d ≠ t := by
  cases s <;> cases t <;> cases d <;> decide

@[simp] theorem destination_modify (s : BReg) (others : List BReg) :
    destination .modify s others = s := rfl

@[simp] theorem destination_fresh (d s : BReg) (others : List BReg) :
    destination (.fresh d) s others = pickRegister (s :: others) d := rfl

@[simp] theorem operandRegister_register (avoid : List BReg) (t : BReg) :
    operandRegister avoid (.register t) = t := rfl

@[simp] theorem operandRegister_object (avoid : List BReg) (o : HostObject) (t : BReg) :
    operandRegister avoid (.object o t) = pickRegister avoid t := rfl

@[simp] theorem loadOperand_register (avoid : List BReg) (t : BReg) :
    loadOperand avoid (.register t) = .ok [] := rfl

/-- All that placing an operand can take: no command for a register, one load for a host object that
passes the shape check. -/
theorem loadOperand_cases {avoid : List BReg} {other : Operand} {load : List Instr}
    (h : loadOperand avoid other = .ok load) :
    (∃ t, other = .register t ∧ load = []) ∨
      ∃ o t b, other = .object o t ∧ checkShape o = .ok b ∧
        load = [.bld (pickRegister avoid t) b.high b.low] := by
  cases other with
  | register t => exact .inl ⟨t, rfl, by simpa using h.symm⟩
  | object o t =>
    simp only [loadOperand] at h
    split at h
    · exact .inr ⟨o, t, _, rfl, ‹_›, by simpa using h.symm⟩
    · cases h

/-- All that an operation with an operand issues: the load, then its own commands. -/
theorem issueWithOperand_cases {avoid : List BReg} {mk : BReg → List Instr} {other : Operand}
    {is : List Instr} (h : issueWithOperand avoid mk other = .ok is) :
    ∃ load, loadOperand avoid other = .ok load ∧ is = load ++ mk (operandRegister avoid other) := by
  simp only [issueWithOperand] at h
  split at h
  · exact ⟨_, ‹_›, by simpa using h.symm⟩
  · cases h

end Sys2Proof.Machine
end

