-- ==== Sys2Proof/Laws/Decode.lean ====
section
/-! SUPPORT. Fields, register numbers, opcodes and immediates: each read undoes its write. -/

namespace Sys2Proof

/-- Every bit of a packed command word, by the positions of R24. -/
theorem getLsbD_packFields (f : Fields) (k : Nat) :
    (packFields f).getLsbD k =
      if k < 16 then f.imm16.getLsbD k
      else if k < 17 then f.v.getLsbD (k - 16)
      else if k < 20 then f.rs2.getLsbD (k - 17)
      else if k < 23 then f.rs1.getLsbD (k - 20)
      else if k < 26 then f.rd.getLsbD (k - 23)
      else f.op.getLsbD (k - 26) := by
  have h : (packFields f).getLsbD k =
      (f.op ++ f.rd ++ f.rs1 ++ f.rs2 ++ f.v ++ f.imm16 : BitVec (6 + 3 + 3 + 3 + 1 + 16)).getLsbD k := rfl
  rw [h]
  simp only [BitVec.getLsbD_append, Nat.sub_sub]
  grind

@[simp] theorem fieldsOf_packFields (f : Fields) : fieldsOf (packFields f) = f := by
  obtain ⟨op, rd, rs1, rs2, v, imm⟩ := f
  simp only [fieldsOf, Fields.mk.injEq]
  refine ⟨?_, ?_, ?_, ?_, ?_, ?_⟩ <;>
    · apply BitVec.eq_of_getLsbD_eq
      intro i hi
      rw [BitVec.getLsbD_extractLsb', getLsbD_packFields]
      grind

theorem packFields_fieldsOf (w : Word) : packFields (fieldsOf w) = w := by
  apply BitVec.eq_of_getLsbD_eq
  intro i hi
  simp only [getLsbD_packFields, fieldsOf, BitVec.getLsbD_extractLsb']
  grind

@[simp] theorem regOf_regNum (r : BReg) : regOf (regNum r) = r := by cases r <;> rfl

@[simp] theorem regNum_regOf (n : BitVec 3) : regNum (regOf n) = n := by revert n; decide

@[simp] theorem opcodeOf_opcodeNumber (o : Opcode) : opcodeOf (opcodeNumber o) = some o := by
  cases o <;> rfl

theorem opcodeNumber_of_opcodeOf {op : BitVec 6} {o : Opcode} (h : opcodeOf op = some o) :
    opcodeNumber o = op := by
  simpa using List.find?_some h

theorem immField_toInt {n : Int} (h : immFits n = true) : (immField n).toInt = n := by
  simp only [immFits, Config.immMin, Config.immMax, Bool.and_eq_true, decide_eq_true_eq] at h
  simp only [immField, BitVec.toInt_ofInt]
  exact Int.bmod_eq_of_le (by omega) (by omega)

theorem immFits_toInt (b : BitVec 16) : immFits b.toInt = true := by
  have h1 := BitVec.le_toInt b
  have h2 := BitVec.toInt_lt (x := b)
  simp only [immFits, Config.immMin, Config.immMax, Bool.and_eq_true, decide_eq_true_eq]
  omega

@[simp] theorem immField_toInt_self (b : BitVec 16) : immField b.toInt = b := by simp [immField]

@[simp] theorem valueArg_valueFlag (f : Fields) (x : Option Word) (h : f.v = valueFlag x) :
    valueArg f (valueWord x) = x := by
  cases x <;> simp [valueArg, valueFlag, valueWord, h]

end Sys2Proof
end

