-- ==== Sys2Proof/Laws/Operands.lean ====
section
/-! SUPPORT. The two halves of a value, and boards as values. -/

namespace Sys2Proof.Machine

theorem getLsbD_cat (h l : Word) (k : Nat) :
    (cat h l).getLsbD k = if k < 32 then l.getLsbD k else h.getLsbD (k - 32) := by
  rw [cat, BitVec.getLsbD_append]

@[simp] theorem hi32_cat (h l : Word) : hi32 (cat h l) = h := by
  apply BitVec.eq_of_getLsbD_eq
  intro i hi
  simp [hi32, getLsbD_cat, hi]

@[simp] theorem lo32_cat (h l : Word) : lo32 (cat h l) = l := by
  apply BitVec.eq_of_getLsbD_eq
  intro i hi
  simp [lo32, getLsbD_cat, hi]

@[simp] theorem cat_hi32_lo32 (v : Value) : cat (hi32 v) (lo32 v) = v := by
  apply BitVec.eq_of_getLsbD_eq
  intro i hi
  rw [getLsbD_cat]
  split
  · simp [lo32, *]
  · have : i - 32 < 32 := by omega
    have h32 : 32 + (i - 32) = i := by omega
    simp [hi32, this, h32]

@[simp] theorem valueOf_boardOf (v : Value) : valueOf (boardOf v) = v := by simp [valueOf, boardOf]

@[simp] theorem boardOf_valueOf (b : Board) : boardOf (valueOf b) = b := by
  cases b; simp [valueOf, boardOf]

theorem valueOf_inj {a b : Board} : valueOf a = valueOf b ↔ a = b :=
  ⟨fun h => by rw [← boardOf_valueOf a, h, boardOf_valueOf], fun h => by rw [h]⟩

end Sys2Proof.Machine
end

