-- ==== Sys2Proof/Laws/State.lean ====
section
/-! SUPPORT. One lemma per field per update of the state: what each named operation leaves in each
register and in each port. -/

namespace Sys2Proof.Machine

/-! ## Registers -/

@[simp] theorem readBoard_writeBoard_self (s : State) (r : BReg) (b : Board) :
    readBoard (writeBoard s r b) r = b := by cases r <;> rfl

theorem readBoard_writeBoard_of_ne (s : State) {r r' : BReg} (b : Board) (h : r' ≠ r) :
    readBoard (writeBoard s r b) r' = readBoard s r' := by
  cases r <;> cases r' <;> first | rfl | exact absurd rfl h

@[simp] theorem writeBoard_inputs (s : State) (r : BReg) (b : Board) :
    (writeBoard s r b).inputs = s.inputs := by cases r <;> rfl

@[simp] theorem writeBoard_responses (s : State) (r : BReg) (b : Board) :
    (writeBoard s r b).responses = s.responses := by cases r <;> rfl

/-- The eight registers are all the register state there is. -/
theorem regs_eq_of_readBoard_eq {s t : State} (h : ∀ r, readBoard s r = readBoard t r) :
    s.regs = t.regs := by
  have h0 := h .b0
  have h1 := h .b1
  have h2 := h .b2
  have h3 := h .b3
  have h4 := h .b4
  have h5 := h .b5
  have h6 := h .b6
  have h7 := h .b7
  obtain ⟨⟨_, _, _, _, _, _, _, _⟩, _, _⟩ := s
  obtain ⟨⟨_, _, _, _, _, _, _, _⟩, _, _⟩ := t
  simp only [readBoard] at h0 h1 h2 h3 h4 h5 h6 h7
  simp [h0, h1, h2, h3, h4, h5, h6, h7]

/-- A register's board depends on the register file alone. -/
theorem readBoard_congr {s t : State} (h : s.regs = t.regs) (r : BReg) :
    readBoard s r = readBoard t r := by cases r <;> simp [readBoard, h]

/-! ## Ports -/

@[simp] theorem deliver_regs (s : State) (x : Response) : (deliver s x).regs = s.regs := rfl

@[simp] theorem deliver_inputs (s : State) (x : Response) : (deliver s x).inputs = s.inputs := rfl

@[simp] theorem deliver_responses (s : State) (x : Response) :
    (deliver s x).responses = s.responses ++ [x] := rfl

@[simp] theorem readBoard_deliver (s : State) (x : Response) (r : BReg) :
    readBoard (deliver s x) r = readBoard s r := by cases r <;> rfl

@[simp] theorem takeInput_regs (s : State) (rest : List HostInput) :
    (takeInput s rest).regs = s.regs := rfl

@[simp] theorem takeInput_inputs (s : State) (rest : List HostInput) :
    (takeInput s rest).inputs = rest := rfl

@[simp] theorem takeInput_responses (s : State) (rest : List HostInput) :
    (takeInput s rest).responses = s.responses := rfl

@[simp] theorem readBoard_takeInput (s : State) (rest : List HostInput) (r : BReg) :
    readBoard (takeInput s rest) r = readBoard s r := by cases r <;> rfl

@[simp] theorem present_regs (s : State) (cs : List Command) : (present s cs).regs = s.regs := rfl

@[simp] theorem present_inputs (s : State) (cs : List Command) :
    (present s cs).inputs = s.inputs ++ cs.map .command := rfl

@[simp] theorem present_responses (s : State) (cs : List Command) :
    (present s cs).responses = s.responses := rfl

/-! ## Reset -/

@[simp] theorem resetEngine_regs (rest : List HostInput) : (resetEngine rest).regs = zeroBoards := rfl

@[simp] theorem resetEngine_inputs (rest : List HostInput) : (resetEngine rest).inputs = rest := rfl

@[simp] theorem resetEngine_responses (rest : List HostInput) :
    (resetEngine rest).responses = [] := rfl

end Sys2Proof.Machine
end

