-- ==== Sys2Proof/Laws/Ops.lean ====
section
/-! SUPPORT. One lemma per shared operation that says once all it can do, for proofs to cite instead of
unfolding it. -/

namespace Sys2Proof.Machine

/-- All that a normal end with a destination does. -/
theorem commit_writesBoard (s : State) (rd : BReg) (b : Board) :
    WritesBoard s rd b (commit s rd b) := by
  refine ⟨?_, fun r h => ?_, ?_, ?_⟩
  · simp [commit, respondWith]
  · simp [commit, respondWith, readBoard_writeBoard_of_ne s b h]
  · simp [commit, respondWith]
  · simp [commit, respondWith, okResponse]

/-- All that a normal end without a destination does. -/
theorem respondWith_answersWords (s : State) (h l : Word) :
    AnswersWords s h l (respondWith s h l) := by
  refine ⟨fun r => ?_, ?_, ?_⟩ <;> simp [respondWith, okResponse]

/-- All that raising an error does. -/
theorem raiseError_raisesError (s : State) (e : Status) : RaisesError s e (raiseError s e) := by
  refine ⟨fun r => ?_, ?_, ?_⟩ <;> simp [raiseError, errorResponse]

/-- The two ends of an offset command (R46, R47). -/
theorem offsetCombine_cases (f : Word → Word → Word) (rd rs1 : BReg) (shift : Int)
    (value : Option Word) (s : State) :
    (OutsideBoard shift ∧ offsetCombine f rd rs1 shift value s = raiseError s .outOfRange) ∨
    (¬OutsideBoard shift ∧ offsetCombine f rd rs1 shift value s =
      commit s rd (lanewise f (readBoard s rs1) (offcLanes (valueOperand value) shift.toNat))) := by
  unfold offsetCombine
  split
  · exact .inl ⟨‹_›, rfl⟩
  · exact .inr ⟨‹_›, rfl⟩

/-- The two ends of a shift command (R52, R53). -/
theorem shiftBoard_cases (f : Board → Nat → Board) (rd rs1 : BReg) (n : Int) (s : State) :
    (n < 0 ∧ shiftBoard f rd rs1 n s = raiseError s .outOfRange) ∨
    (¬n < 0 ∧ shiftBoard f rd rs1 n s = commit s rd (f (readBoard s rs1) n.toNat)) := by
  unfold shiftBoard
  split
  · exact .inl ⟨‹_›, rfl⟩
  · exact .inr ⟨‹_›, rfl⟩

/-- A transaction either decodes and runs as its instruction, or is illegal and raises the error (R30). -/
theorem execute_cases (c : Command) (s : State) :
    (∃ i, decode c = .ok i ∧ execute c s = exec i s) ∨
    (∃ e, decode c = .error e ∧ execute c s = .next (raiseError s .illegalCommand)) := by
  unfold execute
  cases h : decode c with
  | ok i => exact .inl ⟨i, rfl, rfl⟩
  | error e => exact .inr ⟨e, rfl, rfl⟩

/-- All that a step can do: stay idle, reset, or execute the command presented first. -/
theorem step_cases (s : State) :
    (s.inputs = [] ∧ step s = .next s) ∨
    (∃ rest, s.inputs = .reset :: rest ∧ step s = .next (resetEngine rest)) ∨
    (∃ c rest, s.inputs = .command c :: rest ∧ step s = execute c (takeInput s rest)) := by
  unfold step
  split
  · exact .inl ⟨‹_›, rfl⟩
  · exact .inr (.inl ⟨_, ‹_›, rfl⟩)
  · exact .inr (.inr ⟨_, _, ‹_›, rfl⟩)

theorem step_of_command {s : State} {c : Command} {rest : List HostInput}
    (h : s.inputs = .command c :: rest) : step s = execute c (takeInput s rest) := by
  simp [step, h]

end Sys2Proof.Machine
end

