-- ==== Sys2Proof/Laws/PerInstr.lean ====
section
/-! SUPPORT. The statements made of every command, one lemma per constructor. -/

namespace Sys2Proof.Laws

/-- The word a command is encoded as holds the opcode number of R28 in its top six bits, and every
field its format does not use is zero (R25, R29). -/
def OpcodeField.Statement (i : Instr) : Prop :=
  (fieldsOf (encode i).cmd).op = opcodeNumber (opcodeOfInstr i) ∧
    unusedNonzero (opcodeFormat (opcodeOfInstr i)) (fieldsOf (encode i).cmd) = false

theorem OpcodeField.bzero (rd : BReg) : OpcodeField.Statement (.bzero rd) := by
  simp [OpcodeField.Statement, encode, fieldsOfInstr, opcodeOfInstr, opcodeFormat, unusedNonzero]
theorem OpcodeField.bld (rd : BReg) (dh dl : Word) : OpcodeField.Statement (.bld rd dh dl) := by
  simp [OpcodeField.Statement, encode, fieldsOfInstr, opcodeOfInstr, opcodeFormat, unusedNonzero]
theorem OpcodeField.bcopy (rd rs1 : BReg) : OpcodeField.Statement (.bcopy rd rs1) := by
  simp [OpcodeField.Statement, encode, fieldsOfInstr, opcodeOfInstr, opcodeFormat, unusedNonzero]
theorem OpcodeField.brd (rs1 : BReg) : OpcodeField.Statement (.brd rs1) := by
  simp [OpcodeField.Statement, encode, fieldsOfInstr, opcodeOfInstr, opcodeFormat, unusedNonzero]
theorem OpcodeField.band (rd rs1 rs2 : BReg) : OpcodeField.Statement (.band rd rs1 rs2) := by
  simp [OpcodeField.Statement, encode, fieldsOfInstr, opcodeOfInstr, opcodeFormat, unusedNonzero]
theorem OpcodeField.bor (rd rs1 rs2 : BReg) : OpcodeField.Statement (.bor rd rs1 rs2) := by
  simp [OpcodeField.Statement, encode, fieldsOfInstr, opcodeOfInstr, opcodeFormat, unusedNonzero]
theorem OpcodeField.bxor (rd rs1 rs2 : BReg) : OpcodeField.Statement (.bxor rd rs1 rs2) := by
  simp [OpcodeField.Statement, encode, fieldsOfInstr, opcodeOfInstr, opcodeFormat, unusedNonzero]
theorem OpcodeField.bnot (rd rs1 : BReg) : OpcodeField.Statement (.bnot rd rs1) := by
  simp [OpcodeField.Statement, encode, fieldsOfInstr, opcodeOfInstr, opcodeFormat, unusedNonzero]
theorem OpcodeField.boro (rd rs1 : BReg) (shift : Int) (value : Option Word) :
    OpcodeField.Statement (.boro rd rs1 shift value) := by
  simp [OpcodeField.Statement, encode, fieldsOfInstr, opcodeOfInstr, opcodeFormat, unusedNonzero]
theorem OpcodeField.bxro (rd rs1 : BReg) (shift : Int) (value : Option Word) :
    OpcodeField.Statement (.bxro rd rs1 shift value) := by
  simp [OpcodeField.Statement, encode, fieldsOfInstr, opcodeOfInstr, opcodeFormat, unusedNonzero]
theorem OpcodeField.bshl (rd rs1 : BReg) (n : Int) : OpcodeField.Statement (.bshl rd rs1 n) := by
  simp [OpcodeField.Statement, encode, fieldsOfInstr, opcodeOfInstr, opcodeFormat, unusedNonzero]
theorem OpcodeField.bshr (rd rs1 : BReg) (n : Int) : OpcodeField.Statement (.bshr rd rs1 n) := by
  simp [OpcodeField.Statement, encode, fieldsOfInstr, opcodeOfInstr, opcodeFormat, unusedNonzero]
theorem OpcodeField.bget (rs1 : BReg) (n : Int) : OpcodeField.Statement (.bget rs1 n) := by
  simp [OpcodeField.Statement, encode, fieldsOfInstr, opcodeOfInstr, opcodeFormat, unusedNonzero]
theorem OpcodeField.bemp (rs1 : BReg) : OpcodeField.Statement (.bemp rs1) := by
  simp [OpcodeField.Statement, encode, fieldsOfInstr, opcodeOfInstr, opcodeFormat, unusedNonzero]
theorem OpcodeField.bflv (rd rs1 : BReg) : OpcodeField.Statement (.bflv rd rs1) := by
  simp [OpcodeField.Statement, encode, fieldsOfInstr, opcodeOfInstr, opcodeFormat, unusedNonzero]
theorem OpcodeField.bfld (rd rs1 : BReg) : OpcodeField.Statement (.bfld rd rs1) := by
  simp [OpcodeField.Statement, encode, fieldsOfInstr, opcodeOfInstr, opcodeFormat, unusedNonzero]
theorem OpcodeField.br180 (rd rs1 : BReg) : OpcodeField.Statement (.br180 rd rs1) := by
  simp [OpcodeField.Statement, encode, fieldsOfInstr, opcodeOfInstr, opcodeFormat, unusedNonzero]
theorem OpcodeField.br90 (rd rs1 : BReg) : OpcodeField.Statement (.br90 rd rs1) := by
  simp [OpcodeField.Statement, encode, fieldsOfInstr, opcodeOfInstr, opcodeFormat, unusedNonzero]

end Sys2Proof.Laws
end

