-- ==== Sys2Proof/Laws/Transform.lean ====
section
/-! SUPPORT. The bits of a grid transform, before anything is known of its square map. -/

namespace Sys2Proof.Machine

theorem getLsbD_placeSquare (v w : Value) (p : Square → Square) (q : Square) (k : Nat) (hk : k < 64) :
    (placeSquare v p w q).getLsbD k =
      (w.getLsbD k || (idx v (squareIndex q) && decide (63 - squareIndex (p q) = k))) := by
  unfold placeSquare
  cases idx v (squareIndex q)
  · simp
  · simp [hk, eq_comm]

/-- Value-bit `k` of the loop's result is set when some set square among those visited is sent to it. -/
theorem getLsbD_foldl_placeSquare (v : Value) (p : Square → Square) (l : List Square) (w : Value)
    (k : Nat) (hk : k < 64) :
    (l.foldl (placeSquare v p) w).getLsbD k =
      (w.getLsbD k ||
        l.any fun q => idx v (squareIndex q) && decide (63 - squareIndex (p q) = k)) := by
  induction l generalizing w with
  | nil => simp
  | cons q l ih =>
    rw [List.foldl_cons, ih, getLsbD_placeSquare v w p q k hk, List.any_cons, Bool.or_assoc]

theorem getLsbD_gridTransform (v : Value) (p : Square → Square) (k : Nat) (hk : k < 64) :
    (gridTransform v p).getLsbD k =
      allSquares.any fun q => idx v (squareIndex q) && decide (63 - squareIndex (p q) = k) := by
  rw [gridTransform, getLsbD_foldl_placeSquare v p allSquares 0 k hk]
  simp

theorem mem_allSquares (q : Square) : q ∈ allSquares := by
  revert q
  decide

theorem squareIndex_lt (q : Square) : squareIndex q < 64 := by
  unfold squareIndex; omega

theorem squareIndex_inj {q q' : Square} (h : squareIndex q = squareIndex q') : q = q' := by
  unfold squareIndex at h
  ext <;> omega

end Sys2Proof.Machine
end

