-- ==== Sys2Proof/Tests/Slice0.lean ====
section
/-! SUPPORT. The model's own tests. Every expected value is the spec's: a worked example or a vector of
`95_test_vectors.md`, an encoding of `30_encoding.md` section 9, or fields written out by R24 and R25. -/

namespace Sys2Proof.Tests

open Sys2Proof.Machine

/-! ## Helpers -/

/-- The reset state with one register loaded. -/
def board (r : BReg) (high low : Word) : State := writeBoard State.reset r ⟨high, low⟩

/-- The state with one command presented. -/
def presenting (s : State) (w dh dl : Word) : State := present s [⟨w, dh, dl⟩]

/-- The state after one step on a command. -/
def after (s : State) (w dh dl : Word) : Option State :=
  match step (presenting s w dh dl) with
  | .next t => some t
  | .fault _ => none
  | .refused _ => none

/-- The response to a command, as `(ST, RH, RL)`. -/
def answer (s : State) (w dh dl : Word) : Option (Nat × Word × Word) :=
  match after s w dh dl with
  | some t => t.responses.getLast?.map fun r => ((statusCode r.st).toNat, r.rh, r.rl)
  | none => none

/-- The board a register holds after a command. -/
def boardAfter (s : State) (w dh dl : Word) (r : BReg) : Option Board :=
  (after s w dh dl).map fun t => readBoard t r

/-- `exec` answers a next state. -/
def completes (o : Host.Outcome State Fault Refusal) : Bool :=
  match o with
  | .next _ => true
  | .fault _ => false
  | .refused _ => false

/-! ## WellFormed: an ill-formed term for each check (R26, R32) -/

theorem test_wellFormed_boro : Instr.wellFormed (.boro .b0 .b1 32768 none) = false := by decide
theorem test_wellFormed_bxro : Instr.wellFormed (.bxro .b0 .b1 (-32769) (some 1)) = false := by decide
theorem test_wellFormed_bshl : Instr.wellFormed (.bshl .b0 .b1 32768) = false := by decide
theorem test_wellFormed_bshr : Instr.wellFormed (.bshr .b0 .b1 (-32769)) = false := by decide
theorem test_wellFormed_bget : Instr.wellFormed (.bget .b0 65535) = false := by decide

/-! ## Config (R3) -/

theorem test_config_registers : Config.registerCount = 2 ^ 3 ∧ Config.boardBits = 64 ∧
    Config.boardBits = Config.bucketCount * Config.bucketBits ∧
    Config.boardBits = Config.gridSide * Config.gridSide ∧
    Config.commandBits + Config.dataWords * 32 = 96 ∧
    Config.immMax = 2 ^ (Config.immBits - 1) - 1 ∧ Config.immMin = -2 ^ (Config.immBits - 1) := by decide

/-! ## Decoding: a word of every command (R24, R25, R28; section 9 and `95_test_vectors.md`) -/

theorem test_decode_bzero : decode ⟨0x07800000, 0xFFFFFFFF, 0xFFFFFFFF⟩ = .ok (.bzero .b7) := by decide
theorem test_decode_bld : decode ⟨0x08000000, 0x00000000, 0x00000081⟩ = .ok (.bld .b0 0 0x81) := by decide
theorem test_decode_bcopy : decode ⟨0x0C800000, 0, 0⟩ = .ok (.bcopy .b1 .b0) := by decide
theorem test_decode_brd : decode ⟨0x10300000, 0, 0⟩ = .ok (.brd .b3) := by decide
theorem test_decode_band : decode ⟨0x230E0000, 0, 0⟩ = .ok (.band .b6 .b0 .b7) := by decide
theorem test_decode_bor : decode ⟨0x24080000, 0, 0⟩ = .ok (.bor .b0 .b0 .b4) := by decide
theorem test_decode_bxor : decode ⟨0x29940000, 0, 0⟩ = .ok (.bxor .b3 .b1 .b2) := by decide
theorem test_decode_bnot : decode ⟨0x2C900000, 0, 0⟩ = .ok (.bnot .b1 .b1) := by decide
theorem test_decode_boro : decode ⟨0x40810007, 7, 0x00000081⟩ = .ok (.boro .b1 .b0 7 (some 0x81)) := by decide
theorem test_decode_boro_default : decode ⟨0x40800007, 7, 0x00000081⟩ = .ok (.boro .b1 .b0 7 none) := by decide
theorem test_decode_bxro : decode ⟨0x4481003C, 0, 0x000000FF⟩ = .ok (.bxro .b1 .b0 60 (some 0xFF)) := by decide
theorem test_decode_bshl : decode ⟨0x61900040, 0, 0⟩ = .ok (.bshl .b3 .b1 64) := by decide
theorem test_decode_bshr : decode ⟨0x6490FFFF, 0, 0⟩ = .ok (.bshr .b1 .b1 (-1)) := by decide
theorem test_decode_bget : decode ⟨0x8000003F, 0, 0⟩ = .ok (.bget .b0 63) := by decide
theorem test_decode_bemp : decode ⟨0x84700000, 0, 0⟩ = .ok (.bemp .b7) := by decide
theorem test_decode_bflv : decode ⟨0xA0900000, 0, 0⟩ = .ok (.bflv .b1 .b1) := by decide
theorem test_decode_bfld : decode ⟨0xA5B00000, 0, 0⟩ = .ok (.bfld .b3 .b3) := by decide
theorem test_decode_br180 : decode ⟨0xAA000000, 0, 0⟩ = .ok (.br180 .b4 .b0) := by decide
theorem test_decode_br90 : decode ⟨0xAD200000, 0, 0⟩ = .ok (.br90 .b2 .b2) := by decide

theorem test_decode_allZero : decode ⟨0x00000000, 0, 0⟩ = .error .unassignedOpcode := by decide
theorem test_decode_allOnes : decode ⟨0xFFFFFFFF, 0, 0⟩ = .error .unassignedOpcode := by decide
theorem test_decode_firstReserved : decode ⟨0x14000000, 0, 0⟩ = .error .unassignedOpcode := by decide
theorem test_decode_bzeroWithRs1 : decode ⟨0x04100000, 0, 0⟩ = .error .unusedFieldNonzero := by decide
theorem test_decode_boroWithRs2 : decode ⟨0x408E0003, 0, 0⟩ = .error .unusedFieldNonzero := by decide
theorem test_decode_br90WithRs2 : decode ⟨0xAC820000, 0, 0⟩ = .error .unusedFieldNonzero := by decide

/-- `DH` in bits 63..32 and `DL` in bits 95..64, after `CMD` in bits 31..0. -/
theorem test_decodeTableWord_order :
    decodeTableWord 96 0x000000810000000508000000 = some (.bld .b0 5 0x81) := by decide
theorem test_decodeTableWord_bits : decodeTableWord 32 0xFF08000000 = some (.bld .b0 0 0) := by decide

/-! ## One step of every command -/

theorem test_bzero : answer (board .b0 0x01234567 0x89ABCDEF) 0x04000000 0xFFFFFFFF 0xFFFFFFFF = some (0, 0, 0) ∧
    boardAfter (board .b0 0x01234567 0x89ABCDEF) 0x04000000 0xFFFFFFFF 0xFFFFFFFF .b0 = some ⟨0, 0⟩ := by decide
theorem test_bld : answer State.reset 0x08000000 0x01234567 0x89ABCDEF = some (0, 0x01234567, 0x89ABCDEF) ∧
    boardAfter State.reset 0x08000000 0x01234567 0x89ABCDEF .b0 = some ⟨0x01234567, 0x89ABCDEF⟩ := by decide
theorem test_bcopy : answer (board .b0 0x01234567 0x89ABCDEF) 0x0C800000 0 0 = some (0, 0x01234567, 0x89ABCDEF) ∧
    boardAfter (board .b0 0x01234567 0x89ABCDEF) 0x0C800000 0 0 .b1 = some ⟨0x01234567, 0x89ABCDEF⟩ := by decide
theorem test_brd : answer (board .b3 0x000000FF 0xFFFFFF00) 0x10300000 0 0 = some (0, 0x000000FF, 0xFFFFFF00) := by decide
theorem test_band_rd_is_rs2 : answer (writeBoard (board .b0 0xF0F0F0F0 0x0FF00FF0) .b1 ⟨0xFF00FF00, 0x33333333⟩) 0x20820000 0 0 = some (0, 0xF000F000, 0x03300330) ∧
    boardAfter (writeBoard (board .b0 0xF0F0F0F0 0x0FF00FF0) .b1 ⟨0xFF00FF00, 0x33333333⟩) 0x20820000 0 0 .b1 = some ⟨0xF000F000, 0x03300330⟩ := by decide
theorem test_bor_rd_is_rs1 : answer (writeBoard (board .b0 0xF000F000 0x03300330) .b4 ⟨0x0FF00FF0, 0x3CC33CC3⟩) 0x24080000 0 0 = some (0, 0xFFF0FFF0, 0x3FF33FF3) ∧
    boardAfter (writeBoard (board .b0 0xF000F000 0x03300330) .b4 ⟨0x0FF00FF0, 0x3CC33CC3⟩) 0x24080000 0 0 .b0 = some ⟨0xFFF0FFF0, 0x3FF33FF3⟩ := by decide
theorem test_bxor : answer (writeBoard (board .b0 0x0000FFFF 0) .b1 ⟨0x00000FF0, 0xFFFFFFFF⟩) 0x29020000 0 0 = some (0, 0x0000F00F, 0xFFFFFFFF) ∧
    boardAfter (writeBoard (board .b0 0x0000FFFF 0) .b1 ⟨0x00000FF0, 0xFFFFFFFF⟩) 0x29020000 0 0 .b2 = some ⟨0x0000F00F, 0xFFFFFFFF⟩ := by decide
theorem test_bnot : answer (board .b1 0x0000FFFF 0) 0x2C900000 0 0 = some (0, 0xFFFF0000, 0xFFFFFFFF) ∧
    boardAfter (board .b1 0x0000FFFF 0) 0x2C900000 0 0 .b1 = some ⟨0xFFFF0000, 0xFFFFFFFF⟩ := by decide
theorem test_boro_straddles : answer (board .b0 0x12345678 0x9ABCDEF0) 0x4001001C 0 0x000000FF = some (0, 0x1234567F, 0xFABCDEF0) ∧
    boardAfter (board .b0 0x12345678 0x9ABCDEF0) 0x4001001C 0 0x000000FF .b0 = some ⟨0x1234567F, 0xFABCDEF0⟩ := by decide
theorem test_boro_above_32 : answer State.reset 0x40810030 0 0x80000001 = some (0, 0x00010000, 0) := by decide
theorem test_bxro_straddles : answer (board .b0 0x12345678 0x9ABCDEF0) 0x4401001C 0 0x000000FF = some (0, 0x12345677, 0x6ABCDEF0) ∧
    boardAfter (board .b0 0x12345678 0x9ABCDEF0) 0x4401001C 0 0x000000FF .b0 = some ⟨0x12345677, 0x6ABCDEF0⟩ := by decide
theorem test_bxro_outOfRange : answer (board .b1 0 1) 0x44810040 0 5 = some (2, 0, 0) ∧
    boardAfter (board .b1 0 1) 0x44810040 0 5 .b1 = some ⟨0, 1⟩ := by decide
theorem test_bshl_31 : answer (board .b0 0x01234567 0x89ABCDEF) 0x6080001F 0 0 = some (0, 0xC4D5E6F7, 0x80000000) ∧
    boardAfter (board .b0 0x01234567 0x89ABCDEF) 0x6080001F 0 0 .b1 = some ⟨0xC4D5E6F7, 0x80000000⟩ := by decide
theorem test_bshl_negative : answer (board .b1 0xFFFFFFFF 0xFFFFFFFF) 0x6080FFFF 0 0 = some (2, 0, 0) ∧
    boardAfter (board .b1 0xFFFFFFFF 0xFFFFFFFF) 0x6080FFFF 0 0 .b1 = some ⟨0xFFFFFFFF, 0xFFFFFFFF⟩ := by decide
theorem test_bshr_33 : answer (board .b0 0x01234567 0x89ABCDEF) 0x64800021 0 0 = some (0, 0, 0x0091A2B3) ∧
    boardAfter (board .b0 0x01234567 0x89ABCDEF) 0x64800021 0 0 .b1 = some ⟨0, 0x0091A2B3⟩ := by decide
theorem test_bshr_logical : answer (board .b0 0x80000000 0x00000001) 0x64800001 0 0 = some (0, 0x40000000, 0) := by decide
theorem test_bget_32_is_in_low : answer (board .b0 0 0x80000000) 0x80000020 0 0 = some (0, 0, 1) := by decide
theorem test_bget_64_is_an_error : answer (board .b0 0xFFFFFFFF 0xFFFFFFFF) 0x80000040 0 0 = some (2, 0, 0) := by decide
theorem test_bemp_empty : answer State.reset 0x84300000 0 0 = some (0, 0, 1) := by decide
theorem test_bemp_high_only : answer (board .b3 1 0) 0x84300000 0 0 = some (0, 0, 0) := by decide
theorem test_bflv : answer (board .b0 0x01234567 0x89ABCDEF) 0xA0800000 0 0 = some (0, 0xEFCDAB89, 0x67452301) ∧
    boardAfter (board .b0 0x01234567 0x89ABCDEF) 0xA0800000 0 0 .b1 = some ⟨0xEFCDAB89, 0x67452301⟩ := by decide
theorem test_bfld : answer (board .b0 0x01234567 0x89ABCDEF) 0xA4800000 0 0 = some (0, 0xFFAACCF0, 0x00AACCF0) ∧
    boardAfter (board .b0 0x01234567 0x89ABCDEF) 0xA4800000 0 0 .b1 = some ⟨0xFFAACCF0, 0x00AACCF0⟩ := by decide
theorem test_br180 : answer (board .b0 0x01234567 0x89ABCDEF) 0xA8800000 0 0 = some (0, 0xF7B3D591, 0xE6A2C480) ∧
    boardAfter (board .b0 0x01234567 0x89ABCDEF) 0xA8800000 0 0 .b1 = some ⟨0xF7B3D591, 0xE6A2C480⟩ := by decide
theorem test_br90 : answer (board .b0 0x01234567 0x89ABCDEF) 0xAC800000 0 0 = some (0, 0xF0CCAA00, 0xF0CCAAFF) ∧
    boardAfter (board .b0 0x01234567 0x89ABCDEF) 0xAC800000 0 0 .b1 = some ⟨0xF0CCAA00, 0xF0CCAAFF⟩ := by decide

/-- `BGET` with `rd = 1` and `imm = 64`: the decode error comes first (R83). -/
theorem test_priority : answer (board .b0 0 0x81) 0x80800040 0x12345678 0x9ABCDEF0 = some (4, 0, 0) ∧
    boardAfter (board .b0 0 0x81) 0x80800040 0x12345678 0x9ABCDEF0 .b0 = some ⟨0, 0x81⟩ := by decide

/-- `RESET` clears a register and drops what was answered (R90). -/
theorem test_reset_input :
    (match step { raiseError (board .b5 1 2) .outOfRange with inputs := [.reset] } with
      | .next t => decide (t = State.reset)
      | .fault _ => false
      | .refused _ => false) = true := by decide

/-- The word placed by `withFetchWord` is the one the next step runs (`CMD 0x07800000`, `BZERO B7`). -/
theorem test_withFetchWord :
    (match step (State.withFetchWord (board .b7 1 2) 32 0x07800000) with
      | .next t => decide (readBoard t .b7 = ⟨0, 0⟩ ∧ t.inputs = [])
      | .fault _ => false
      | .refused _ => false) = true := by decide

/-! ## Networks and lane forms (`95_test_vectors.md` section 2.6 and section 4) -/

theorem test_mirror : mirror 0x0123456789ABCDEF = 0x80C4A2E691D5B3F7 := by decide
theorem test_mirrorNet : mirrorNet 0x0123456789ABCDEF = 0x80C4A2E691D5B3F7 := by decide
theorem test_flipDiagonalNet : flipDiagonalNet 0x0000FFFF00000000 = 0x0C0C0C0C0C0C0C0C := by decide
theorem test_exchange36TwoSided :
    exchange36TwoSided 0x0123456789ABCDEF = exchange 0x0123456789ABCDEF maskDG4 36 := by decide
theorem test_offcLanes : offcLanes 0x00000081 28 = ⟨0x00000008, 0x10000000⟩ := by decide
theorem test_shlLanes : shlLanes ⟨0x01234567, 0x89ABCDEF⟩ 4 = ⟨0x12345678, 0x9ABCDEF0⟩ := by decide
theorem test_shrLanes : shrLanes ⟨0x01234567, 0x89ABCDEF⟩ 4 = ⟨0x00123456, 0x789ABCDE⟩ := by decide
theorem test_top32_bot32 : top32 8 = 0xFF000000 ∧ top32 0 = 0 ∧ top32 32 = 0xFFFFFFFF ∧
    bot32 8 = 0x000000FF ∧ bot32 0 = 0 ∧ bot32 32 = 0xFFFFFFFF := by decide

/-! ## Host adapter (`95_test_vectors.md` section 2.8) -/

theorem test_array : issue (.newArray .b0 [.integer 0, .integer 129]) = .ok [.bld .b0 0 129] := by decide
theorem test_array_half :
    issue (.newArray .b0 [.fraction 1 2, .integer 0]) = .error malformedBoard := by decide
theorem test_array_tooLarge :
    issue (.newArray .b0 [.integer 4294967296, .integer 0]) = .error malformedBoard := by decide
theorem test_array_three :
    issue (.newArray .b0 [.integer 1, .integer 2, .integer 3]) = .error malformedBoard := by decide
theorem test_string_36 :
    issue (.newString .b0 ("1010".toList ++ List.replicate 30 '0' ++ "11".toList)) =
      .ok [.bld .b0 10 3] := by decide
theorem test_string_empty : issue (.newString .b0 []) = .error malformedBoardString := by decide
theorem test_string_65 :
    issue (.newString .b0 (List.replicate 65 '0')) = .error malformedBoardString := by decide
theorem test_render : render 255 4294967040 =
    List.replicate 24 '0' ++ List.replicate 32 '1' ++ List.replicate 8 '0' := by decide
theorem test_getIndex_64 : issue (.getIndex .b0 (.integer 64)) = .error argumentOutOfRange := by decide
theorem test_getIndex_fraction :
    issue (.getIndex .b0 (.fraction 5 2)) = .error argumentOutOfRange := by decide
theorem test_shiftLeft_clamped :
    issue (.shiftLeft (.fresh .b1) .b0 (.integer 100000)) = .ok [.bshl .b1 .b0 64] := by decide
theorem test_orAtOffset_value :
    issue (.orAtOffset .modify .b0 (.integer 3) (some (.integer 4294967296))) =
      .error argumentOutOfRange := by decide
theorem test_orAtOffset_one :
    issue (.orAtOffset .modify .b0 (.integer 7) (some (.integer 1))) =
      .ok [.boro .b0 .b0 7 (some 1)] := by decide
theorem test_and_notABoard :
    issue (.and .modify .b0 (.object ⟨[.integer 1, .integer 2, .integer 3], .integer 64⟩ .b1)) =
      .error notABoard := by decide
theorem test_and_object :
    issue (.and .modify .b0 (.object ⟨[.integer 1, .integer 2], .integer 64⟩ .b1)) =
      .ok [.bld .b1 1 2, .band .b0 .b0 .b1] := by decide

/-- R78: without the "modify" flag the receiver's register is not picked, nor the operand's. -/
theorem test_fresh_keepsReceiver :
    issue (.not (.fresh .b0) .b0) ≠ .ok [.bnot .b0 .b0] ∧
    issue (.and (.fresh .b1) .b0 (.register .b1)) ≠ .ok [.band .b1 .b0 .b1] ∧
    issue (.not (.fresh .b2) .b0) = .ok [.bnot .b2 .b0] := by decide
/-- R74: `copy()` is `BCOPY Bd, Bs` with `d != s`. -/
theorem test_copy_otherRegister :
    issue (.copy .b3 (.register .b3)) ≠ .ok [.bcopy .b3 .b3] ∧
    issue (.copy .b2 (.register .b3)) = .ok [.bcopy .b2 .b3] := by decide

/-! ## Assembler (`30_encoding.md` section 9, R33, and the programs of `95_test_vectors.md`) -/

theorem test_assemble_bld : (assembleLine "BLD B0, 0, 129".toList).map encode =
    some ⟨0x08000000, 0x00000000, 0x00000081⟩ := by decide
theorem test_assemble_hex : (assembleLine "  BLD B6, 0xF0F0F0F0, 0x00000000 ; DG4".toList).map encode =
    some ⟨0x0B000000, 0xF0F0F0F0, 0x00000000⟩ := by decide
theorem test_assemble_negative : (assembleLine "BSHR B1, B1, #-1".toList).map encode =
    some ⟨0x6490FFFF, 0, 0⟩ := by decide
theorem test_assemble_value : (assembleLine "BORO B1, B0, #7, 129".toList).map encode =
    some ⟨0x40810007, 0, 0x81⟩ := by decide
theorem test_assemble_bset : (assembleLine "BSET B0, B0, @56".toList).map encode =
    some ⟨0x40000007, 0, 0⟩ := by decide
theorem test_assemble_inPlace : assembleLine "BR90 B2".toList = assembleLine "BR90 B2, B2".toList ∧
    (assembleLine "BR90 B2, B2".toList).map encode = some ⟨0xAD200000, 0, 0⟩ := by decide
theorem test_assemble_tooLarge : assembleLine "BSHL B1, B0, #32768".toList = none := by decide
theorem test_assemble_bset_64 : assembleLine "BSET B0, B0, @64".toList = none := by decide

/-! ## Witnesses: states and operands that meet the hypotheses of the statements -/

/-- A state with a command presented, at which a statement about a step on a command begins. -/
theorem test_witness_presented :
    (presenting State.reset 0x07800000 1 2).inputs = .command ⟨0x07800000, 1, 2⟩ :: [] := by decide

/-- `DecodeOfEncodeIsTheCommand`: immediates at both ends of the range. -/
theorem test_witness_wellFormed : Instr.wellFormed (.boro .b0 .b1 (-32768) (some 5)) = true ∧
    Instr.wellFormed (.bshl .b0 .b1 32767) = true := by decide

/-- `EncodeOfDecodeIsTheCommandWord`, `StepRunsTheDecodedCommand`: a word that decodes. -/
theorem test_witness_decodes : (presenting State.reset 0x21020000 0 0).inputs =
      .command ⟨0x21020000, 0, 0⟩ :: [] ∧
    decode ⟨0x21020000, 0, 0⟩ = .ok (.band .b2 .b0 .b1) := by decide

/-- `IllegalCommandInExactlyTwoCases`, the data words: an offset command with `V = 1`, one with `V = 0`, and a command of
another format. -/
theorem test_witness_dataWords : opBits 0x40810007 ≠ 0x02 ∧ opBits 0x40800007 = 0x10 ∧
    (0x40800007 : Word).getLsbD 16 = false ∧ opBits 0x0C800000 ≠ 0x10 ∧ opBits 0x0C800000 ≠ 0x11 ∧
    opBits 0x0C800000 ≠ 0x02 := by decide

/-- `FailedCommandChangesNothing`, `StatusIsTheFirstFailingCheck`: every class the engine reports. -/
theorem test_witness_classes : reportedStatus 0x00000000 = .illegalCommand ∧
    reportedStatus 0x80800040 = .illegalCommand ∧ reportedStatus 0x80000040 = .outOfRange ∧
    reportedStatus 0x8000003F = .ok ∧ reportedStatus 0x6080FFFF = .outOfRange ∧
    reportedStatus 0x60800000 = .ok ∧ reportedStatus 0x60807FFF = .ok := by decide

/-- `OneCommandWritesAtMostItsDestination`: a query, a failing command, and a register other than the
destination. -/
theorem test_witness_destination : opBits 0x8000003F ∈ [(0x04 : BitVec 6), 0x20, 0x21] ∧
    reportedStatus 0x00000000 ≠ .ok ∧ rdOf ⟨0x21020000, 0, 0⟩ = .b2 ∧ BReg.b0 ≠ .b2 := by decide

/-- `ResultDependsOnBoardsAndCommandOnly`: two states with the same boards and different ports. -/
theorem test_witness_sameBoards : (raiseError State.reset .outOfRange).regs = State.reset.regs ∧
    raiseError State.reset .outOfRange ≠ State.reset := by decide

/-- `IdleEngineKeepsItsState`, `ResetInputGivesTheResetState`. -/
theorem test_witness_inputs : State.reset.inputs = [] ∧
    ({ State.reset with inputs := [.reset] } : State).inputs = .reset :: [] := by decide

/-- `StepKeepsOnlyEngineResponses`: a state that has answered and can step. -/
theorem test_witness_responses : onlyEngineResponses (raiseError State.reset .illegalCommand) = true ∧
    completes (step (presenting (raiseError State.reset .illegalCommand) 0x80000040 0 0)) = true := by
  decide

/-- `RunAnswersEveryCommandInOrder`: two commands presented. -/
theorem test_witness_run : (present State.reset [⟨0x07800000, 0, 0⟩, ⟨0x84700000, 0, 0⟩]).inputs =
    [⟨0x07800000, 0, 0⟩, ⟨0x84700000, 0, 0⟩].map HostInput.command ++ [] := by decide

/-- A word of a command that meets its row's `match` and `mask`, one with the same opcode that does
not, and a state that presents each: the hypotheses of `RunsAs`. -/
def runsAsMet (op : BitVec 6) (matchWord maskWord good bad : Word) : Bool :=
  decide ((presenting State.reset good 0 0).inputs = .command ⟨good, 0, 0⟩ :: [] ∧
    (presenting State.reset bad 0 0).inputs = .command ⟨bad, 0, 0⟩ :: [] ∧
    opBits good = op ∧ good &&& maskWord = matchWord ∧ opBits bad = op ∧ bad &&& maskWord ≠ matchWord)

theorem test_witness_bzero : runsAsMet 0x01 0x04000000 0xFC7FFFFF 0x07800000 0x04000001 = true := by decide
theorem test_witness_bld : runsAsMet 0x02 0x08000000 0xFC7FFFFF 0x0B800000 0x08010000 = true := by decide
theorem test_witness_bcopy : runsAsMet 0x03 0x0C000000 0xFC0FFFFF 0x0C900000 0x0C820000 = true := by decide
theorem test_witness_brd : runsAsMet 0x04 0x10000000 0xFF8FFFFF 0x10700000 0x10800000 = true := by decide
theorem test_witness_band : runsAsMet 0x08 0x20000000 0xFC01FFFF 0x230E0000 0x21030000 = true := by decide
theorem test_witness_bor : runsAsMet 0x09 0x24000000 0xFC01FFFF 0x270E0000 0x24000001 = true := by decide
theorem test_witness_bxor : runsAsMet 0x0A 0x28000000 0xFC01FFFF 0x2B0E0000 0x28010000 = true := by decide
theorem test_witness_bnot : runsAsMet 0x0B 0x2C000000 0xFC0FFFFF 0x2FF00000 0x2C808000 = true := by decide
theorem test_witness_boro : runsAsMet 0x10 0x40000000 0xFC0E0000 0x4081003F 0x408E0003 = true := by decide
theorem test_witness_bxro : runsAsMet 0x11 0x44000000 0xFC0E0000 0x44808000 0x44020000 = true := by decide
theorem test_witness_bshl : runsAsMet 0x18 0x60000000 0xFC0F0000 0x60807FFF 0x60810001 = true := by decide
theorem test_witness_bshr : runsAsMet 0x19 0x64000000 0xFC0F0000 0x6480FFFF 0x64020000 = true := by decide
theorem test_witness_bget : runsAsMet 0x20 0x80000000 0xFF8F0000 0x8000003F 0x80800040 = true := by decide
theorem test_witness_bemp : runsAsMet 0x21 0x84000000 0xFF8FFFFF 0x84700000 0x84000001 = true := by decide
theorem test_witness_bflv : runsAsMet 0x28 0xA0000000 0xFC0FFFFF 0xA0900000 0xA0000001 = true := by decide
theorem test_witness_bfld : runsAsMet 0x29 0xA4000000 0xFC0FFFFF 0xA5B00000 0xA4020000 = true := by decide
theorem test_witness_br180 : runsAsMet 0x2A 0xA8000000 0xFC0FFFFF 0xAA000000 0xA8010000 = true := by decide
theorem test_witness_br90 : runsAsMet 0x2B 0xAC000000 0xFC0FFFFF 0xAD200000 0xAC820000 = true := by decide

/-- `BoroOrsTheContribution`, `BxroXorsTheContribution`, `BgetAnswersTheBitAtTheIndex`: the ends of the
range and the values just outside it. -/
theorem test_witness_bitPositions : ¬OutsideBoard 0 ∧ ¬OutsideBoard 63 ∧ OutsideBoard (-1) ∧
    OutsideBoard 64 ∧ completes (exec (.boro .b0 .b1 63 none) State.reset) = true ∧
    completes (exec (.bxro .b0 .b1 (-1) (some 3)) State.reset) = true ∧
    completes (exec (.bget .b1 63) State.reset) = true ∧
    completes (exec (.bget .b1 64) State.reset) = true := by decide

/-- `BshlShiftsTheWholeValueLeft`, `BshrShiftsTheWholeValueRight`: both sides of 0. -/
theorem test_witness_shiftAmounts : (0 : Int) ≤ 0 ∧ (-1 : Int) < 0 ∧
    completes (exec (.bshl .b0 .b1 0) State.reset) = true ∧
    completes (exec (.bshr .b0 .b1 (-1)) State.reset) = true := by decide

/-- `IndexCountsFromTheMostSignificantBit`, `OffsetLanesMakeTheContribution`,
`ShiftsMoveBitsAlongTheIndex`, `ShiftLanesCarryAcrossTheBoundary`:
the values where their clauses meet, and what the model gives there. -/
theorem test_witness_boundaries : idx 0x0000000100000000 31 = true ∧ idx 0x0000000080000000 32 = true ∧
    idx 0x8000000000000000 0 = true ∧ idx 0x0000000000000001 63 = true ∧
    offcLanes 0xFFFFFFFF 0 = ⟨0, 0xFFFFFFFF⟩ ∧ offcLanes 0xFFFFFFFF 1 = ⟨1, 0xFFFFFFFE⟩ ∧
    offcLanes 0xFFFFFFFF 31 = ⟨0x7FFFFFFF, 0x80000000⟩ ∧ offcLanes 0xFFFFFFFF 32 = ⟨0xFFFFFFFF, 0⟩ ∧
    offcLanes 0xFFFFFFFF 33 = ⟨0xFFFFFFFE, 0⟩ ∧ offcLanes 0xFFFFFFFF 63 = ⟨0x80000000, 0⟩ ∧
    shlLanes ⟨1, 2⟩ 0 = ⟨1, 2⟩ ∧ shlLanes ⟨1, 2⟩ 32 = ⟨2, 0⟩ ∧ shlLanes ⟨1, 2⟩ 33 = ⟨4, 0⟩ ∧
    shlLanes ⟨1, 3⟩ 63 = ⟨0x80000000, 0⟩ ∧ shlLanes ⟨1, 2⟩ 64 = ⟨0, 0⟩ ∧
    shrLanes ⟨4, 2⟩ 0 = ⟨4, 2⟩ ∧ shrLanes ⟨4, 2⟩ 32 = ⟨0, 4⟩ ∧ shrLanes ⟨4, 2⟩ 33 = ⟨0, 2⟩ ∧
    shrLanes ⟨0x80000000, 0⟩ 63 = ⟨0, 1⟩ ∧ shrLanes ⟨4, 2⟩ 64 = ⟨0, 0⟩ := by decide

/-- `LogicLaws`: a destination other than both sources. -/
theorem test_witness_defaultMode : BReg.b2 ≠ .b0 ∧ BReg.b2 ≠ .b1 ∧
    Instr.band .b2 .b0 .b1 ∈ [Instr.band .b2 .b0 .b1, .bor .b2 .b0 .b1, .bxor .b2 .b0 .b1,
      .bnot .b2 .b0] := by decide

/-- `GridTransformPermutesSquares`: the square map of the diagonal flip is a bijection, being its own
inverse. -/
theorem test_witness_bijection : Function.Bijective flipDiagonalMap :=
  Function.Involutive.bijective (by intro q; revert q; decide)

/-- `ArrayConstructorLoadsTwoWords`: both ends of the range, and a list that is refused. -/
theorem test_witness_array : asInteger (.integer 0) = some 0 ∧ asInteger (.fraction 8589934590 2) =
    some 4294967295 ∧ (4294967295 : Int) < 2 ^ 32 ∧
    issue (.newArray .b0 [.integer 0, .fraction 8589934590 2]) = .ok [.bld .b0 0 0xFFFFFFFF] ∧
    issue (.newArray .b0 []) = .error malformedBoard := by decide

/-- `StringConstructorReadsABinaryNumeral`, `RenderingRoundTrip`: strings at the lengths where the
clauses meet, and refused ones. -/
theorem test_witness_string : checkString ['1'] = .ok ⟨0, 1⟩ ∧
    checkString (List.replicate 32 '1') = .ok ⟨0, 0xFFFFFFFF⟩ ∧
    checkString ('1' :: List.replicate 32 '0') = .ok ⟨1, 0⟩ ∧
    checkString (List.replicate 64 '1') = .ok ⟨0xFFFFFFFF, 0xFFFFFFFF⟩ ∧
    checkString ['2'] = .error malformedBoardString := by decide

/-- `AdapterChecksIndexAndShift`: accepted and refused arguments at the ends of the ranges. -/
theorem test_witness_arguments : issue (.getIndex .b0 (.integer 0)) = .ok [.bget .b0 0] ∧
    issue (.getIndex .b0 (.integer 63)) = .ok [.bget .b0 63] ∧
    issue (.getIndex .b0 (.integer (-1))) = .error argumentOutOfRange ∧
    issue (.shiftRight .modify .b0 (.integer 0)) = .ok [.bshr .b0 .b0 0] ∧
    issue (.shiftRight .modify .b0 (.integer (-1))) = .error argumentOutOfRange ∧
    issue (.shiftLeft .modify .b0 .nonNumber) = .error argumentOutOfRange := by decide

/-- `AdapterChecksOffsetArguments`: both ends of the two ranges, and a bad argument of each. -/
theorem test_witness_offsetArguments :
    issue (.xorAtOffset .modify .b0 (.integer 63) (some (.integer 4294967295))) =
      .ok [.bxro .b0 .b0 63 (some 0xFFFFFFFF)] ∧
    issue (.orAtOffset .modify .b0 (.integer 0) (some (.integer 0))) = .ok [.boro .b0 .b0 0 (some 0)] ∧
    issue (.orAtOffset .modify .b0 (.integer 64) none) = .error argumentOutOfRange ∧
    issue (.xorAtOffset .modify .b0 (.integer 3) (some (.integer (-1)))) =
      .error argumentOutOfRange := by decide

/-- `ForeignOperandIsNotABoard`: an object that is accepted, and one without length 64. -/
theorem test_witness_operand :
    issue (.xor .modify .b0 (.object ⟨[.integer 0, .integer 4294967295], .integer 64⟩ .b1)) =
      .ok [.bld .b1 0 0xFFFFFFFF, .bxor .b0 .b0 .b1] ∧
    issue (.or .modify .b0 (.object ⟨[.integer 1, .integer (-1)], .integer 64⟩ .b1)) =
      .error notABoard ∧
    issue (.or .modify .b0 (.object ⟨[.integer 1, .integer 2], .nonNumber⟩ .b1)) =
      .error notABoard ∧
    issue (.or .modify .b0 (.object ⟨[.integer 1, .integer 2], .integer 64⟩ .b0)) =
      .ok [.bld .b1 1 2, .bor .b0 .b0 .b1] := by decide

/-- `ModifyFlagChoosesTheDestination`: arguments at the ends of the ranges that pass the checks, an object
that passes the shape check, and where it is loaded when the host names the receiver's register. -/
theorem test_witness_modes : State.reset.inputs = [] ∧
    checkShift (.integer 0) = .ok 0 ∧ checkShift (.integer 100000) = .ok 64 ∧
    checkIndex (.integer 0) = .ok 0 ∧ checkIndex (.integer 63) = .ok 63 ∧
    checkValue none = .ok none ∧ checkValue (some (.integer 4294967295)) = .ok (some 0xFFFFFFFF) ∧
    checkShape ⟨[.integer 1, .integer 2], .integer 64⟩ = .ok ⟨1, 2⟩ ∧
    operandRegister [.b0] (.object ⟨[.integer 1, .integer 2], .integer 64⟩ .b0) = .b1 ∧
    issue (.xor (.fresh .b2) .b0 (.register .b1)) = .ok [.bxor .b2 .b0 .b1] ∧
    issue (.rotate180 .modify .b5) = .ok [.br180 .b5 .b5] := by decide

/-- `IssuedCommandsAllComplete`: an operation whose checks pass, at reset. -/
theorem test_witness_issued : issue (.equal .b2 .b0 (.register .b1)) =
      .ok [.bxor .b2 .b0 .b1, .bemp .b2] ∧ State.reset.inputs = [] ∧
    noErrorSoFar State.reset = true := by decide

/-- `PseudoInstructionsExpand`: indices, immediates and data words at the ends of their ranges and just
outside them. -/
theorem test_witness_pseudo :
    assembleOperands .bset [.reg .b0, .reg .b1, .index 0] = some (.boro .b0 .b1 63 none) ∧
    assembleOperands .btgl [.reg .b0, .reg .b1, .index 63] = some (.bxro .b0 .b1 0 none) ∧
    assembleOperands .bset [.reg .b0, .reg .b1, .index (-1)] = none ∧
    assembleOperands .btgl [.reg .b0, .reg .b1, .index 64] = none ∧
    assembleOperands (.op .bshl) [.reg .b3, .imm 32767] = some (.bshl .b3 .b3 32767) ∧
    assembleOperands (.op .bshr) [.reg .b3, .imm (-32769)] = none ∧
    assembleOperands (.op .boro) [.reg .b3, .imm (-32768), .word 4294967295] =
      some (.boro .b3 .b3 (-32768) (some 0xFFFFFFFF)) ∧
    assembleOperands (.op .bxro) [.reg .b3, .imm 3, .word 4294967296] = none := by decide

end Sys2Proof.Tests
end

/-! Obligations O12 and O18 (`00_scope.md` R5, `20_memory.md` R20, `70_reset_and_hazards.md` R94).

Both rest on one comparison. Two states with equal boards are taken through the same operation, and
the operation is shown to end alike from both. `RunAnswersEveryCommandInOrder` is that comparison
between the running engine and the states without ports that `replay` looks at. -/

namespace Sys2Proof.Machine

/-! ## Ending alike from two states -/

/-- Both outcomes are next states with equal boards, each leaves its own inputs in place, and each
appends the same one response to those already delivered. -/
def EndsAlike (s₁ s₂ : State) (o₁ o₂ : Host.Outcome State Fault Refusal) : Prop :=
  ∃ t₁ t₂ r, o₁ = .next t₁ ∧ o₂ = .next t₂ ∧ t₁.regs = t₂.regs ∧
    t₁.inputs = s₁.inputs ∧ t₂.inputs = s₂.inputs ∧
    t₁.responses = s₁.responses ++ [r] ∧ t₂.responses = s₂.responses ++ [r]

theorem writeBoard_regs_congr {s₁ s₂ : State} (h : s₁.regs = s₂.regs) (rd : BReg) (b : Board) :
    (writeBoard s₁ rd b).regs = (writeBoard s₂ rd b).regs := by
  cases rd <;> simp [writeBoard, h]

section
variable {s₁ s₂ : State} (h : s₁.regs = s₂.regs)
include h

theorem raiseError_endsAlike (e : Status) :
    EndsAlike s₁ s₂ (.next (raiseError s₁ e)) (.next (raiseError s₂ e)) :=
  ⟨_, _, _, rfl, rfl, h, rfl, rfl, rfl, rfl⟩

theorem respondWith_endsAlike {rh₁ rh₂ rl₁ rl₂ : Word} (hrh : rh₁ = rh₂) (hrl : rl₁ = rl₂) :
    EndsAlike s₁ s₂ (.next (respondWith s₁ rh₁ rl₁)) (.next (respondWith s₂ rh₂ rl₂)) := by
  subst hrh hrl
  exact ⟨_, _, _, rfl, rfl, h, rfl, rfl, rfl, rfl⟩

theorem commit_endsAlike (rd : BReg) {b₁ b₂ : Board} (hb : b₁ = b₂) :
    EndsAlike s₁ s₂ (.next (commit s₁ rd b₁)) (.next (commit s₂ rd b₂)) := by
  subst hb
  obtain ⟨-, -, hin₁, hresp₁⟩ := commit_writesBoard s₁ rd b₁
  obtain ⟨-, -, hin₂, hresp₂⟩ := commit_writesBoard s₂ rd b₁
  exact ⟨_, _, _, rfl, rfl, writeBoard_regs_congr h rd b₁, hin₁, hin₂, hresp₁, hresp₂⟩

theorem offsetCombine_endsAlike (f : Word → Word → Word) (rd rs1 : BReg) (shift : Int)
    (value : Option Word) :
    EndsAlike s₁ s₂ (.next (offsetCombine f rd rs1 shift value s₁))
      (.next (offsetCombine f rd rs1 shift value s₂)) := by
  by_cases hs : OutsideBoard shift
  · simp only [offsetCombine, if_pos hs]
    exact raiseError_endsAlike h .outOfRange
  · simp only [offsetCombine, if_neg hs]
    exact commit_endsAlike h rd (by rw [readBoard_congr h])

theorem shiftBoard_endsAlike (f : Board → Nat → Board) (rd rs1 : BReg) (n : Int) :
    EndsAlike s₁ s₂ (.next (shiftBoard f rd rs1 n s₁)) (.next (shiftBoard f rd rs1 n s₂)) := by
  by_cases hn : n < 0
  · simp only [shiftBoard, if_pos hn]
    exact raiseError_endsAlike h .outOfRange
  · simp only [shiftBoard, if_neg hn]
    exact commit_endsAlike h rd (by rw [readBoard_congr h])

theorem execBget_endsAlike (rs1 : BReg) (n : Int) :
    EndsAlike s₁ s₂ (execBget rs1 n s₁) (execBget rs1 n s₂) := by
  by_cases hn : OutsideBoard n
  · simp only [execBget, if_pos hn]
    exact raiseError_endsAlike h .outOfRange
  · simp only [execBget, if_neg hn]
    exact respondWith_endsAlike h rfl (by rw [readBoard_congr h])

/-- Every command reads the ports nowhere: it ends alike from any two states with the same boards (R5). -/
theorem exec_endsAlike (i : Instr) : EndsAlike s₁ s₂ (exec i s₁) (exec i s₂) := by
  have read := readBoard_congr h
  cases i with
  | bzero rd => exact commit_endsAlike h rd rfl
  | bld rd dh dl => exact commit_endsAlike h rd rfl
  | bcopy rd rs1 => exact commit_endsAlike h rd (read rs1)
  | brd rs1 => exact respondWith_endsAlike h (by rw [read]) (by rw [read])
  | band rd rs1 rs2 => exact commit_endsAlike h rd (by rw [read, read])
  | bor rd rs1 rs2 => exact commit_endsAlike h rd (by rw [read, read])
  | bxor rd rs1 rs2 => exact commit_endsAlike h rd (by rw [read, read])
  | bnot rd rs1 => exact commit_endsAlike h rd (by rw [read])
  | boro rd rs1 shift value => exact offsetCombine_endsAlike h _ rd rs1 shift value
  | bxro rd rs1 shift value => exact offsetCombine_endsAlike h _ rd rs1 shift value
  | bshl rd rs1 n => exact shiftBoard_endsAlike h _ rd rs1 n
  | bshr rd rs1 n => exact shiftBoard_endsAlike h _ rd rs1 n
  | bget rs1 n => exact execBget_endsAlike h rs1 n
  | bemp rs1 => exact respondWith_endsAlike h rfl (by rw [read])
  | bflv rd rs1 => exact commit_endsAlike h rd (by rw [read])
  | bfld rd rs1 => exact commit_endsAlike h rd (by rw [read])
  | br180 rd rs1 => exact commit_endsAlike h rd (by rw [read])
  | br90 rd rs1 => exact commit_endsAlike h rd (by rw [read])

theorem execute_endsAlike (c : Command) : EndsAlike s₁ s₂ (execute c s₁) (execute c s₂) := by
  unfold execute
  cases decode c with
  | ok i => exact exec_endsAlike h i
  | error e => exact raiseError_endsAlike h .illegalCommand

end

/-! ## Running and replaying -/

theorem run_succ_of_step {s t : State} (h : step s = .next t) (k : Nat) :
    core.run (k + 1) s = core.run k t := by
  have hstep : core.step s = .next t := h
  simp only [Host.Core.run, hstep]

@[simp] theorem replay_nil (regs : BoardFile) : replay [] regs = (regs, []) := rfl

/-- Executing `c` in `s` answers once and does to the boards what `replay` of `c` does, whatever is
replayed after it. -/
theorem execute_replay (c : Command) (s : State) :
    ∃ t r, execute c s = .next t ∧ t.inputs = s.inputs ∧ t.responses = s.responses ++ [r] ∧
      ∀ cs, replay (c :: cs) s.regs = ((replay cs t.regs).1, r :: (replay cs t.regs).2) := by
  obtain ⟨t, u, r, ht, hu, hregs, hin, -, hresp, hrespu⟩ :=
    execute_endsAlike (s₁ := s) (s₂ := ⟨s.regs, [], []⟩) rfl c
  refine ⟨t, r, ht, hin, hresp, fun cs => ?_⟩
  simp [replay, hu, hregs, hrespu]

/-- `execute_replay` seen from the boards alone. -/
theorem replay_cons (c : Command) (regs : BoardFile) :
    ∃ regs' r, ∀ cs, replay (c :: cs) regs = ((replay cs regs').1, r :: (replay cs regs').2) := by
  obtain ⟨t, r, -, -, -, hreplay⟩ := execute_replay c ⟨regs, [], []⟩
  exact ⟨t.regs, r, hreplay⟩

/-- Every command is answered exactly once in a replay. -/
theorem length_replay (cs : List Command) (regs : BoardFile) :
    (replay cs regs).2.length = cs.length := by
  induction cs generalizing regs with
  | nil => rfl
  | cons c cs ih =>
    obtain ⟨regs', r, hreplay⟩ := replay_cons c regs
    simp [hreplay, ih]

/-- The response at place `k` is the one that command `k` alone gives on the boards the earlier
commands leave. -/
theorem replay_getElem? (cs : List Command) (regs : BoardFile) (k : Nat) (hk : k < cs.length) :
    ∃ r, (replay cs regs).2[k]? = some r ∧
      (replay [cs[k]] (replay (cs.take k) regs).1).2 = [r] := by
  induction cs generalizing regs k with
  | nil => simp at hk
  | cons c cs ih =>
    obtain ⟨regs', r, hreplay⟩ := replay_cons c regs
    cases k with
    | zero => exact ⟨r, by simp [hreplay], by simp [hreplay]⟩
    | succ k => simpa [hreplay] using ih regs' k (by simpa using hk)

/-- The run follows the replay: one step for each presented command. -/
theorem run_eq_replay (cs : List Command) (rest : List HostInput) (s : State)
    (hin : s.inputs = cs.map .command ++ rest) :
    ∃ t : State, core.run cs.length s = .next t ∧ t.inputs = rest ∧
      t.regs = (replay cs s.regs).1 ∧ t.responses = s.responses ++ (replay cs s.regs).2 := by
  induction cs generalizing s with
  | nil => exact ⟨s, rfl, hin, rfl, by simp⟩
  | cons c cs ih =>
    obtain ⟨t, r, hexec, hinputs, hresp, hreplay⟩ :=
      execute_replay c (takeInput s (cs.map .command ++ rest))
    have hstep : step s = .next t := (step_of_command hin).trans hexec
    obtain ⟨u, hrun, hrest, hregs, hall⟩ := ih t hinputs
    rw [takeInput_regs] at hreplay
    refine ⟨u, (run_succ_of_step hstep cs.length).trans hrun, hrest, ?_, ?_⟩
    · rw [hregs, hreplay]
    · rw [hall, hresp, hreplay]
      simp

/-! ## The statements -/

/-- Settles O12: `EndsAlike` for `execute`, without what it says of the inputs. -/
theorem resultDependsOnBoardsAndCommandOnly : Obligations.ResultDependsOnBoardsAndCommandOnly := by
  intro c s₁ s₂ h
  obtain ⟨t₁, t₂, r, h₁, h₂, hregs, -, -, hresp₁, hresp₂⟩ := execute_endsAlike h c
  exact ⟨t₁, t₂, r, h₁, h₂, hregs, hresp₁, hresp₂⟩

/-- Settles O18: the run follows the replay, and the replay answers the `k`-th command at place `k`. -/
theorem runAnswersEveryCommandInOrder : Obligations.RunAnswersEveryCommandInOrder := by
  intro cs rest s hin
  obtain ⟨t, hrun, hrest, hregs, hresp⟩ := run_eq_replay cs rest s hin
  refine ⟨t, hrun, hrest, hregs, hresp, length_replay cs s.regs, fun k hk => ?_⟩
  obtain ⟨r, hr, hone⟩ := replay_getElem? cs s.regs k hk
  refine ⟨r, ?_, hone⟩
  rw [hresp, List.getElem?_append_right (Nat.le_add_right _ _), Nat.add_sub_cancel_left, hr]

end Sys2Proof.Machine


/-! Obligations O37 and O13 (`10_state.md` R7, R14): where an index lies in a board, and what the board
registers hold after reset. -/

namespace Sys2Proof.Machine

/-! ## Index numbering (R7) -/

/-- Below 32 an index lies in `high`. -/
theorem idx_valueOf_of_lt (b : Board) {n : Nat} (hn : n < 32) :
    idx (valueOf b) n = b.high.getLsbD (31 - n) := by
  rw [idx, if_pos hn, valueOf, hi32_cat]

/-- From 32 on an index lies in `low`. -/
theorem idx_valueOf_of_ge (b : Board) {n : Nat} (hn : 32 ≤ n) :
    idx (valueOf b) n = b.low.getLsbD (63 - n) := by
  rw [idx, if_neg (Nat.not_lt.mpr hn), valueOf, lo32_cat]

/-- The two buckets read together: index `n` of any value is its value-bit `63 - n`. -/
theorem idx_eq_getLsbD (v : Value) {n : Nat} (hn : n ≤ 63) : idx v n = v.getLsbD (63 - n) := by
  by_cases h : n < 32
  · have hbit : 32 + (31 - n) = 63 - n := by omega
    have hin : 31 - n < 32 := by omega
    simp [idx, hi32, h, hbit, hin]
  · have hin : 63 - n < 32 := by omega
    simp [idx, lo32, h, hin]

/-- Settles O37: R7's case split at 32, and the two buckets read together. -/
theorem indexCountsFromTheMostSignificantBit :
    Obligations.IndexCountsFromTheMostSignificantBit :=
  fun b _ hn => ⟨idx_eq_getLsbD (valueOf b) hn, idx_valueOf_of_lt b, idx_valueOf_of_ge b⟩

/-! ## The reset state (R14) -/

@[simp] theorem readBoard_reset (r : BReg) : readBoard State.reset r = zeroBoard := by
  cases r <;> rfl

@[simp] theorem reset_responses : State.reset.responses = [] := rfl

/-- Settles O13: each register's reset value, and the empty response port. -/
theorem resetHoldsZeroBoards : Obligations.ResetHoldsZeroBoards :=
  ⟨readBoard_reset, reset_responses⟩

end Sys2Proof.Machine

/-! Obligations O9, O10 and O6 (`20_memory.md` R19, R20; `30_encoding.md` R30; `60_exceptions.md`
R81): what one step writes, what it answers, and that it is `exec` of the decoded command.

The frame of O9 is proved on instructions first: `exec_cases` says the three ways a command can end,
in terms of the register it writes and of its range check. What decoding fixes of a command word then
carries that over to the word's bits and to the tables of R28, R29 and R80. -/

namespace Sys2Proof.Machine

/-! ## The ways a command ends -/

/-- The register a command writes when it completes; `BRD`, `BGET` and `BEMP` have none (R19). -/
def instrDestination : Instr → Option BReg
  | .brd _ | .bget _ _ | .bemp _ => none
  | .bzero rd | .bld rd _ _ | .bcopy rd _ | .bnot rd _
  | .band rd _ _ | .bor rd _ _ | .bxor rd _ _
  | .boro rd _ _ _ | .bxro rd _ _ _ | .bshl rd _ _ | .bshr rd _ _
  | .bflv rd _ | .bfld rd _ | .br180 rd _ | .br90 rd _ => some rd

/-- The command's immediate is one that its own rule rejects: the column "`OutOfRange` when" of R80. -/
def instrOutOfRange : Instr → Bool
  | .boro _ _ n _ | .bxro _ _ n _ | .bget _ n => decide (OutsideBoard n)
  | .bshl _ _ n | .bshr _ _ n => decide (n < 0)
  | .bzero _ | .bld _ _ _ | .bcopy _ _ | .brd _ | .band _ _ _ | .bor _ _ _ | .bxor _ _ _ | .bnot _ _
  | .bemp _ | .bflv _ _ | .bfld _ _ | .br180 _ _ | .br90 _ _ => false

/-- The instruction `i`, run in `s` with outcome `o`, ends in one of three ways: the write of its
destination, an answer without a write, or the error of its range check (R19, R31, R81). -/
inductive EndsAs (i : Instr) (s : State) (o : Host.Outcome State Fault Refusal) : Prop where
  | write (rd : BReg) (b : Board) (hrd : instrDestination i = some rd)
      (hrange : instrOutOfRange i = false) (h : o = .next (commit s rd b))
  | answer (rh rl : Word) (hrd : instrDestination i = none) (hrange : instrOutOfRange i = false)
      (h : o = .next (respondWith s rh rl))
  | error (hrange : instrOutOfRange i = true) (h : o = .next (raiseError s .outOfRange))

theorem offsetCombine_endsAs {i : Instr} {s : State} {f : Word → Word → Word} {rd rs1 : BReg}
    {n : Int} {value : Option Word} (hrd : instrDestination i = some rd)
    (hrange : instrOutOfRange i = decide (OutsideBoard n)) :
    EndsAs i s (.next (offsetCombine f rd rs1 n value s)) := by
  obtain ⟨hn, h⟩ | ⟨hn, h⟩ := offsetCombine_cases f rd rs1 n value s
  · exact .error (hrange.trans (decide_eq_true hn)) (congrArg _ h)
  · exact .write rd _ hrd (hrange.trans (decide_eq_false hn)) (congrArg _ h)

theorem shiftBoard_endsAs {i : Instr} {s : State} {f : Board → Nat → Board} {rd rs1 : BReg}
    {n : Int} (hrd : instrDestination i = some rd) (hrange : instrOutOfRange i = decide (n < 0)) :
    EndsAs i s (.next (shiftBoard f rd rs1 n s)) := by
  obtain ⟨hn, h⟩ | ⟨hn, h⟩ := shiftBoard_cases f rd rs1 n s
  · exact .error (hrange.trans (decide_eq_true hn)) (congrArg _ h)
  · exact .write rd _ hrd (hrange.trans (decide_eq_false hn)) (congrArg _ h)

/-- All that `exec` can do. -/
theorem exec_cases (i : Instr) (s : State) : EndsAs i s (exec i s) := by
  cases i with
  | bzero rd => exact .write rd _ rfl rfl rfl
  | bld rd dh dl => exact .write rd _ rfl rfl rfl
  | bcopy rd rs1 => exact .write rd _ rfl rfl rfl
  | brd rs1 => exact .answer _ _ rfl rfl rfl
  | band rd rs1 rs2 => exact .write rd _ rfl rfl rfl
  | bor rd rs1 rs2 => exact .write rd _ rfl rfl rfl
  | bxor rd rs1 rs2 => exact .write rd _ rfl rfl rfl
  | bnot rd rs1 => exact .write rd _ rfl rfl rfl
  | boro rd rs1 n value => exact offsetCombine_endsAs rfl rfl
  | bxro rd rs1 n value => exact offsetCombine_endsAs rfl rfl
  | bshl rd rs1 n => exact shiftBoard_endsAs rfl rfl
  | bshr rd rs1 n => exact shiftBoard_endsAs rfl rfl
  | bget rs1 n =>
    by_cases hn : OutsideBoard n
    · exact .error (decide_eq_true hn) (if_pos hn)
    · exact .answer _ _ rfl (decide_eq_false hn) (if_neg hn)
  | bemp rs1 => exact .answer _ _ rfl rfl rfl
  | bflv rd rs1 => exact .write rd _ rfl rfl rfl
  | bfld rd rs1 => exact .write rd _ rfl rfl rfl
  | br180 rd rs1 => exact .write rd _ rfl rfl rfl
  | br90 rd rs1 => exact .write rd _ rfl rfl rfl

/-- The frame of one instruction: it keeps the inputs and every register but its destination, and with
no destination or a rejected immediate it keeps every register. -/
theorem exec_frame (i : Instr) (s : State) :
    ∃ t, exec i s = .next t ∧ t.inputs = s.inputs ∧
      (∀ r, instrDestination i ≠ some r → readBoard t r = readBoard s r) ∧
      (instrOutOfRange i = true → ∀ r, readBoard t r = readBoard s r) := by
  cases exec_cases i s with
  | write rd b hrd hrange h =>
    obtain ⟨-, hother, hin, -⟩ := commit_writesBoard s rd b
    refine ⟨_, h, hin, fun r hr => hother r ?_, by simp [hrange]⟩
    rintro rfl
    exact hr hrd
  | answer rh rl hrd hrange h =>
    obtain ⟨hregs, hin, -⟩ := respondWith_answersWords s rh rl
    exact ⟨_, h, hin, fun r _ => hregs r, fun _ => hregs⟩
  | error hrange h =>
    obtain ⟨hregs, hin, -⟩ := raiseError_raisesError s .outOfRange
    exact ⟨_, h, hin, fun r _ => hregs r, fun _ => hregs⟩

/-! ## What decoding fixes of a command word -/

/-- The two checks a legal word passes, and the command it is then read as (R30). -/
theorem opcode_of_decode {c : Command} {i : Instr} (h : decode c = .ok i) :
    ∃ o, opBits c.cmd = opcodeNumber o ∧
      unusedNonzero (opcodeFormat o) (fieldsOf c.cmd) = false ∧
      i = instrOf o (fieldsOf c.cmd) c.dh c.dl := by
  unfold decode at h
  split at h
  · cases h
  · next o ho =>
    split at h
    · cases h
    · next hunused =>
      exact ⟨o, (opcodeNumber_of_opcodeOf ho).symm, by simpa using hunused, by simpa using h.symm⟩

/-- Of the 18 opcodes those of `BRD`, `BGET` and `BEMP` have no destination; `rd` names that of the
others (R25, R28). -/
theorem instrDestination_instrOf (o : Opcode) (f : Fields) (dh dl : Word) :
    instrDestination (instrOf o f dh dl) =
      if opcodeNumber o ∈ [0x04, 0x20, 0x21] then none else some (regOf f.rd) := by
  cases o <;> rfl

/-- The range check of the instruction is the one R80 lists for its opcode. -/
theorem instrOutOfRange_instrOf {w : Word} {o : Opcode} (h : opBits w = opcodeNumber o)
    (dh dl : Word) :
    instrOutOfRange (instrOf o (fieldsOf w) dh dl) = immediateOutOfRange w := by
  unfold immediateOutOfRange
  rw [h]
  cases o <;> rfl

theorem unassignedOp_opcodeNumber (o : Opcode) : unassignedOp (opcodeNumber o) = false := by
  cases o <;> rfl

/-- `CMD[16]` as a field of one bit and as a bit. -/
theorem flagField_ne_zero (w : Word) : (w.extractLsb' 16 1 != 0#1) = w[16] := by
  have hbit : w.extractLsb' 16 1 = BitVec.ofBool w[16] := by
    ext k hk
    obtain rfl : k = 0 := by omega
    simp
  rw [hbit]
  cases w[16] <;> rfl

/-- The decoder's test of the unused fields is R29's, which reads the column `uses` of R25. -/
theorem someUnusedNonzero_eq (fmt : Format) (w : Word) :
    someUnusedNonzero fmt w = unusedNonzero fmt (fieldsOf w) := by
  cases fmt <;>
    simp [someUnusedNonzero, unusedNonzero, formatUses, fieldNonzero, fieldsOf, flagField_ne_zero,
      Bool.or_assoc]

/-- One row of R28's table has the word's opcode, so R29's case (b) is the test of that row's format. -/
theorem malformedWord_of_opBits {w : Word} {o : Opcode} (h : opBits w = opcodeNumber o) :
    malformedWord w = unusedNonzero (opcodeFormat o) (fieldsOf w) := by
  rw [← someUnusedNonzero_eq, malformedWord, h]
  cases o <;> simp [opcodeTable, opcodeNumber, opcodeFormat]

/-- A word that decodes reports what its range check says, by the tables of R80 in the order of R83. -/
theorem reportedStatus_of_decode {c : Command} {i : Instr} (h : decode c = .ok i) :
    reportedStatus c.cmd = if instrOutOfRange i then .outOfRange else .ok := by
  obtain ⟨o, hop, hunused, rfl⟩ := opcode_of_decode h
  have hassigned : unassignedOp (opBits c.cmd) = false := hop ▸ unassignedOp_opcodeNumber o
  have hformed : malformedWord c.cmd = false := (malformedWord_of_opBits hop).trans hunused
  simp [reportedStatus, hassigned, hformed, instrOutOfRange_instrOf hop]

/-- A word that decodes writes the register `CMD[25:23]` names, or none for the three opcodes without
a destination. -/
theorem instrDestination_of_decode {c : Command} {i : Instr} (h : decode c = .ok i) :
    instrDestination i = if opBits c.cmd ∈ [0x04, 0x20, 0x21] then none else some (rdOf c) := by
  obtain ⟨o, hop, -, rfl⟩ := opcode_of_decode h
  rw [hop, instrDestination_instrOf]
  rfl

/-! ## One transaction -/

theorem execute_of_decode {c : Command} {i : Instr} (h : decode c = .ok i) (s : State) :
    execute c s = exec i s := by
  simp [execute, h]

/-- The frame of one command transaction, legal or not. -/
theorem execute_frame (c : Command) (s : State) :
    ∃ t, execute c s = .next t ∧ t.inputs = s.inputs ∧
      (∀ r, r ≠ rdOf c → readBoard t r = readBoard s r) ∧
      (opBits c.cmd ∈ [0x04, 0x20, 0x21] ∨ reportedStatus c.cmd ≠ .ok →
        ∀ r, readBoard t r = readBoard s r) := by
  obtain ⟨i, hdec, hexec⟩ | ⟨_, -, hexec⟩ := execute_cases c s
  · have hdest := instrDestination_of_decode hdec
    have hstatus := reportedStatus_of_decode hdec
    obtain ⟨t, ht, hin, hother, hfail⟩ := exec_frame i s
    refine ⟨t, hexec.trans ht, hin, fun r hr => hother r ?_, ?_⟩
    · rw [hdest]
      split <;> simp [hr.symm]
    · rintro (hquery | herr) r
      · exact hother r (by rw [hdest, if_pos hquery]; exact nofun)
      · exact hfail (by simpa [hstatus] using herr) r
  · obtain ⟨hregs, hin, -⟩ := raiseError_raisesError s .illegalCommand
    exact ⟨_, hexec, hin, fun r _ => hregs r, fun _ => hregs⟩

/-- `execute_replay` after the command is taken from the port. -/
theorem step_answers_command {c : Command} {rest : List HostInput} {s : State}
    (h : s.inputs = .command c :: rest) :
    ∃ t r, step s = .next t ∧ t.inputs = rest ∧ t.responses = s.responses ++ [r] := by
  obtain ⟨t, r, ht, hin, hresp, -⟩ := execute_replay c (takeInput s rest)
  exact ⟨t, r, (step_of_command h).trans ht, hin, hresp⟩

/-! ## The statements -/

/-- Settles O9: `execute_frame` after the command is taken from the port. -/
theorem oneCommandWritesAtMostItsDestination :
    Obligations.OneCommandWritesAtMostItsDestination := by
  intro c rest s h
  obtain ⟨t, ht, hin, hother, hall⟩ := execute_frame c (takeInput s rest)
  simp only [readBoard_takeInput] at hother hall
  exact ⟨t, (step_of_command h).trans ht, hin, hother, hall⟩

/-- Settles O10: an idle step and a reset answer by themselves, a command by `step_answers_command`. -/
theorem everyCommandIsAnsweredOnce : Obligations.EveryCommandIsAnsweredOnce := by
  refine ⟨fun s => ?_, fun c rest s => step_answers_command⟩
  obtain ⟨-, h⟩ | ⟨_, -, h⟩ | ⟨_, _, hin, -⟩ := step_cases s
  · exact ⟨s, h⟩
  · exact ⟨_, h⟩
  · obtain ⟨t, -, ht, -⟩ := step_answers_command hin
    exact ⟨t, ht⟩

/-- Settles O6: the step executes the command it takes, and a command that decodes executes as its
instruction. -/
theorem stepRunsTheDecodedCommand : Obligations.StepRunsTheDecodedCommand := by
  intro c rest s i h hdec
  exact (step_of_command h).trans (execute_of_decode hdec (takeInput s rest))

end Sys2Proof.Machine

/-! Obligations O1, O2, O3 and O5 (`30_encoding.md` R23 to R30): decoder and encoder undo each other,
and the decoder makes the tests of R28's table.

All of them speak of a command word through `decode_eq_ok_iff`, the two checks of R30 that a legal word
passes. The match and mask of R28 are brought into that form field by field: both are packed words, and
packing takes a conjunction of fields to the conjunction of the words. -/

namespace Sys2Proof.Machine

/-! ## Legal command words -/

theorem decode_of_opcodeOf_eq_none {c : Command} (h : opcodeOf (opBits c.cmd) = none) :
    decode c = .error .unassignedOpcode := by
  have hop : opcodeOf (fieldsOf c.cmd).op = none := h
  simp [decode, hop]

theorem decode_of_opBits {c : Command} {o : Opcode} (h : opBits c.cmd = opcodeNumber o) :
    decode c = if unusedNonzero (opcodeFormat o) (fieldsOf c.cmd) then .error .unusedFieldNonzero
      else .ok (instrOf o (fieldsOf c.cmd) c.dh c.dl) := by
  have hop : opcodeOf (fieldsOf c.cmd).op = some o :=
    (congrArg opcodeOf h).trans (opcodeOf_opcodeNumber o)
  simp [decode, hop]

/-- A word is legal exactly when it has an opcode of R28 and its unused fields are zero; it is then the
command of that opcode and its fields (R30). -/
theorem decode_eq_ok_iff {c : Command} {i : Instr} :
    decode c = .ok i ↔
      ∃ o, opBits c.cmd = opcodeNumber o ∧
        unusedNonzero (opcodeFormat o) (fieldsOf c.cmd) = false ∧
        i = instrOf o (fieldsOf c.cmd) c.dh c.dl := by
  refine ⟨opcode_of_decode, ?_⟩
  rintro ⟨o, hop, hunused, rfl⟩
  simp [decode_of_opBits hop, hunused]

@[simp] theorem opcodeOfInstr_instrOf (o : Opcode) (f : Fields) (dh dl : Word) :
    opcodeOfInstr (instrOf o f dh dl) = o := by cases o <;> rfl

/-! ## Decoding an encoded command -/

/-- `OpcodeField.Statement` for every command. -/
theorem opcodeField_encode (i : Instr) : Laws.OpcodeField.Statement i := by
  cases i with
  | bzero rd => exact Laws.OpcodeField.bzero rd
  | bld rd dh dl => exact Laws.OpcodeField.bld rd dh dl
  | bcopy rd rs1 => exact Laws.OpcodeField.bcopy rd rs1
  | brd rs1 => exact Laws.OpcodeField.brd rs1
  | band rd rs1 rs2 => exact Laws.OpcodeField.band rd rs1 rs2
  | bor rd rs1 rs2 => exact Laws.OpcodeField.bor rd rs1 rs2
  | bxor rd rs1 rs2 => exact Laws.OpcodeField.bxor rd rs1 rs2
  | bnot rd rs1 => exact Laws.OpcodeField.bnot rd rs1
  | boro rd rs1 n value => exact Laws.OpcodeField.boro rd rs1 n value
  | bxro rd rs1 n value => exact Laws.OpcodeField.bxro rd rs1 n value
  | bshl rd rs1 n => exact Laws.OpcodeField.bshl rd rs1 n
  | bshr rd rs1 n => exact Laws.OpcodeField.bshr rd rs1 n
  | bget rs1 n => exact Laws.OpcodeField.bget rs1 n
  | bemp rs1 => exact Laws.OpcodeField.bemp rs1
  | bflv rd rs1 => exact Laws.OpcodeField.bflv rd rs1
  | bfld rd rs1 => exact Laws.OpcodeField.bfld rd rs1
  | br180 rd rs1 => exact Laws.OpcodeField.br180 rd rs1
  | br90 rd rs1 => exact Laws.OpcodeField.br90 rd rs1

/-- The fields and data words of a well-formed command hold all its operands: registers by
`regOf_regNum`, the immediate by `immField_toInt`, the optional value by `valueArg_valueFlag`. -/
theorem instrOf_fieldsOfInstr {i : Instr} (h : i.wellFormed = true) :
    instrOf (opcodeOfInstr i) (fieldsOfInstr i) (dataWordsOf i).1 (dataWordsOf i).2 = i := by
  cases i with
  | boro _ _ _ _ | bxro _ _ _ _ =>
    simp [instrOf, opcodeOfInstr, fieldsOfInstr, dataWordsOf, immOf, immField_toInt h]
  | bshl _ _ _ | bshr _ _ _ | bget _ _ =>
    simp [instrOf, opcodeOfInstr, fieldsOfInstr, immOf, immField_toInt h]
  | _ => simp [instrOf, opcodeOfInstr, fieldsOfInstr, dataWordsOf]

/-! ## Encoding a decoded command -/

theorem wellFormed_instrOf (o : Opcode) (f : Fields) (dh dl : Word) :
    (instrOf o f dh dl).wellFormed = true := by
  cases o <;> simp [instrOf, Instr.wellFormed, immOf, immFits_toInt]

@[simp] theorem valueFlag_valueArg (f : Fields) (dl : Word) : valueFlag (valueArg f dl) = f.v := by
  obtain hv | hv : f.v = 0 ∨ f.v = 1 := by generalize f.v = v; revert v; decide
  all_goals simp [valueArg, valueFlag, hv]

/-- A command holds every field its format uses, by `regNum_regOf`, `immField_toInt_self` and
`valueFlag_valueArg`, and the others are zero in a legal word. -/
theorem fieldsOfInstr_instrOf {o : Opcode} {f : Fields} (hop : f.op = opcodeNumber o)
    (hunused : unusedNonzero (opcodeFormat o) f = false) (dh dl : Word) :
    fieldsOfInstr (instrOf o f dh dl) = f := by
  obtain ⟨op, rd, rs1, rs2, v, imm⟩ := f
  subst hop
  cases o <;> simp_all [instrOf, fieldsOfInstr, opcodeOfInstr, unusedNonzero, opcodeFormat, immOf]

/-- Settles O1: the encoded word passes both checks of R30, and its fields hold every operand. -/
theorem decodeOfEncodeIsTheCommand : Obligations.DecodeOfEncodeIsTheCommand := by
  intro i hwf
  obtain ⟨hop, hunused⟩ := opcodeField_encode i
  refine decode_eq_ok_iff.mpr ⟨opcodeOfInstr i, hop, hunused, ?_⟩
  simp only [encode, fieldsOf_packFields]
  exact (instrOf_fieldsOfInstr hwf).symm

/-- Settles O2: the fields of the decoded command are those of the word, and a word is its fields. -/
theorem encodeOfDecodeIsTheCommandWord : Obligations.EncodeOfDecodeIsTheCommandWord := by
  intro c i h
  obtain ⟨o, hop, hunused, rfl⟩ := decode_eq_ok_iff.mp h
  refine ⟨wellFormed_instrOf .., ?_⟩
  rw [encode, fieldsOfInstr_instrOf hop hunused, packFields_fieldsOf]

/-! ## The table of R28 -/

/-- The row of R28's table that the model's own columns give an opcode. -/
def rowOf (o : Opcode) : OpcodeRow where
  op := opcodeNumber o
  opcode := o
  format := opcodeFormat o
  matchWord := opcodeMatch o
  maskWord := opcodeMask o

theorem mem_opcodeTable {row : OpcodeRow} : row ∈ opcodeTable ↔ ∃ o, row = rowOf o := by
  have htable : opcodeTable = allOpcodes.map rowOf := rfl
  have hall : ∀ o, o ∈ allOpcodes := fun o => by cases o <;> decide
  simp [htable, hall, eq_comm]

/-! ## Match and mask (R28) -/

/-- The conjunction of two command words, field by field. -/
def andFields (f g : Fields) : Fields where
  op := f.op &&& g.op
  rd := f.rd &&& g.rd
  rs1 := f.rs1 &&& g.rs1
  rs2 := f.rs2 &&& g.rs2
  v := f.v &&& g.v
  imm16 := f.imm16 &&& g.imm16

theorem packFields_andFields (f g : Fields) :
    packFields (andFields f g) = packFields f &&& packFields g := by
  apply BitVec.eq_of_getLsbD_eq
  intro k _
  simp only [BitVec.getLsbD_and, getLsbD_packFields, andFields]
  split_ifs <;> rfl

theorem packFields_inj {f g : Fields} : packFields f = packFields g ↔ f = g :=
  ⟨fun h => by rw [← fieldsOf_packFields f, h, fieldsOf_packFields], congrArg packFields⟩

/-- What a decoder tests of a word of the format: the opcode and every field the format does not use. -/
def testedFields (fmt : Format) : Fields where
  op := BitVec.allOnes 6
  rd := if .rd ∈ formatUses fmt then 0 else BitVec.allOnes 3
  rs1 := if .rs1 ∈ formatUses fmt then 0 else BitVec.allOnes 3
  rs2 := if .rs2 ∈ formatUses fmt then 0 else BitVec.allOnes 3
  v := if .v ∈ formatUses fmt then 0 else BitVec.allOnes 1
  imm16 := if .imm16 ∈ formatUses fmt then 0 else BitVec.allOnes 16

theorem opcodeMask_eq (o : Opcode) : opcodeMask o = packFields (testedFields (opcodeFormat o)) := by
  cases o <;> rfl

theorem opcodeMatch_eq (o : Opcode) : opcodeMatch o = packFields { op := opcodeNumber o } := by
  cases o <;> rfl

theorem andFields_testedFields_eq_iff (fmt : Format) (f : Fields) (op : BitVec 6) :
    andFields f (testedFields fmt) = { op } ↔ f.op = op ∧ unusedNonzero fmt f = false := by
  cases fmt <;> simp [andFields, testedFields, formatUses, unusedNonzero, and_assoc,
    -BitVec.reduceAllOnes]

/-- `CMD & mask == match` tests the opcode and that the unused fields are zero. -/
theorem and_opcodeMask_eq_iff (o : Opcode) (w : Word) :
    w &&& opcodeMask o = opcodeMatch o ↔
      opBits w = opcodeNumber o ∧ unusedNonzero (opcodeFormat o) (fieldsOf w) = false := by
  rw [opcodeMask_eq, opcodeMatch_eq, ← packFields_fieldsOf w, ← packFields_andFields, packFields_inj,
    fieldsOf_packFields, andFields_testedFields_eq_iff, packFields_fieldsOf]
  rfl

theorem exists_decode_eq_ok_iff (c : Command) (o : Opcode) :
    (∃ i, decode c = .ok i ∧ opcodeOfInstr i = o) ↔
      opBits c.cmd = opcodeNumber o ∧ unusedNonzero (opcodeFormat o) (fieldsOf c.cmd) = false := by
  constructor
  · rintro ⟨i, hdec, rfl⟩
    obtain ⟨o, hop, hunused, rfl⟩ := decode_eq_ok_iff.mp hdec
    rw [opcodeOfInstr_instrOf]
    exact ⟨hop, hunused⟩
  · rintro ⟨hop, hunused⟩
    exact ⟨_, decode_eq_ok_iff.mpr ⟨o, hop, hunused, rfl⟩, opcodeOfInstr_instrOf ..⟩

/-- Settles O3: a row is an opcode's, and both tests of it are the two checks of R30. -/
theorem decoderTestsMatchAndMask : Obligations.DecoderTestsMatchAndMask := by
  refine ⟨fun row hrow => ?_, fun c i hdec => ?_, rfl, fun op hop => ?_⟩
  · obtain ⟨o, rfl⟩ := mem_opcodeTable.mp hrow
    refine ⟨fun o' => by simp [rowOf, eq_comm], fun c => ⟨?_, ?_⟩⟩
    · exact (exists_decode_eq_ok_iff c o).trans (and_opcodeMask_eq_iff o c.cmd).symm
    · rw [someUnusedNonzero_eq]
      exact and_opcodeMask_eq_iff o c.cmd
  · obtain ⟨o, hop, -, rfl⟩ := decode_eq_ok_iff.mp hdec
    exact ⟨rowOf o, mem_opcodeTable.mpr ⟨o, rfl⟩, hop.symm, (opcodeOfInstr_instrOf ..).symm⟩
  · refine Option.eq_none_iff_forall_ne_some.mpr fun o ho => ?_
    exact hop (rowOf o) (mem_opcodeTable.mpr ⟨o, rfl⟩) (opcodeNumber_of_opcodeOf ho)

/-! ## The examples of section 9 -/

/-- Settles O5: each word is decoded. -/
theorem specEncodingExamplesDecode : Obligations.SpecEncodingExamplesDecode := by
  unfold Obligations.SpecEncodingExamplesDecode
  decide

end Sys2Proof.Machine

/-! Obligations O16, O17 and O4 (`30_encoding.md` R25, R27, R29, R31; `60_exceptions.md` R79, R81): which
responses the engine can give, and which command words it answers with `IllegalCommand`.

`exec_response` says which response a legal word gets. It is never `IllegalCommand`, so that class is
what the decoder's two checks raise and nothing else. -/

namespace Sys2Proof.Machine

/-! ## The response of one command (R31, R79) -/

/-- A command delivers one response, normal or the error of its range check. -/
theorem exec_response {i : Instr} {s t : State} (h : exec i s = .next t) :
    ∃ r, t.responses = s.responses ++ [r] ∧ (r.st = .ok ∨ r = errorResponse .outOfRange) := by
  cases exec_cases i s with
  | write rd b _ _ hend =>
    obtain rfl := Host.Outcome.next.inj (h.symm.trans hend)
    obtain ⟨-, -, -, hresp⟩ := commit_writesBoard s rd b
    exact ⟨_, hresp, .inl rfl⟩
  | answer rh rl _ _ hend =>
    obtain rfl := Host.Outcome.next.inj (h.symm.trans hend)
    exact ⟨_, rfl, .inl rfl⟩
  | error _ hend =>
    obtain rfl := Host.Outcome.next.inj (h.symm.trans hend)
    exact ⟨_, rfl, .inr rfl⟩

theorem execute_response {c : Command} {s t : State} (h : execute c s = .next t) :
    ∃ r, t.responses = s.responses ++ [r] ∧ engineResponse r = true := by
  obtain ⟨i, -, hexec⟩ | ⟨_, -, hexec⟩ := execute_cases c s
  · obtain ⟨r, hresp, hst | rfl⟩ := exec_response (hexec.symm.trans h)
    · exact ⟨r, hresp, by simp [engineResponse, hst]⟩
    · exact ⟨_, hresp, rfl⟩
  · obtain rfl := Host.Outcome.next.inj (h.symm.trans hexec)
    exact ⟨_, rfl, rfl⟩

theorem onlyEngineResponses_of_append {s t : State} {r : Response}
    (h : t.responses = s.responses ++ [r]) :
    onlyEngineResponses t = (onlyEngineResponses s && engineResponse r) := by
  simp [onlyEngineResponses, h]

/-- Settles O16: an idle step adds no response, a reset drops them all, and a command adds one that the
engine can produce. -/
theorem stepKeepsOnlyEngineResponses : Obligations.StepKeepsOnlyEngineResponses := by
  intro s t hs ht
  obtain ⟨-, h⟩ | ⟨rest, -, h⟩ | ⟨c, rest, -, h⟩ := step_cases s
  · obtain rfl := Host.Outcome.next.inj (ht.symm.trans h)
    exact hs
  · obtain rfl := Host.Outcome.next.inj (ht.symm.trans h)
    rfl
  · obtain ⟨r, hresp, hr⟩ := execute_response (h.symm.trans ht)
    rw [takeInput_responses] at hresp
    rw [onlyEngineResponses_of_append hresp, hs, hr]
    rfl

/-- Settles O17: no response has been delivered. -/
theorem resetHasOnlyEngineResponses : Obligations.ResetHasOnlyEngineResponses := by
  simp [Obligations.ResetHasOnlyEngineResponses, onlyEngineResponses]

/-! ## Illegal command words (R29) -/

/-- The 46 values that the ranges of R29 list are those without an opcode. -/
theorem opcodeOf_eq_none_iff (op : BitVec 6) : opcodeOf op = none ↔ unassignedOp op = true := by
  revert op
  decide

theorem exists_decode_eq_error_iff (c : Command) :
    (∃ e, decode c = .error e) ↔
      unassignedOp (opBits c.cmd) = true ∨ malformedWord c.cmd = true := by
  rw [← opcodeOf_eq_none_iff]
  cases ho : opcodeOf (opBits c.cmd) with
  | none => simp [decode_of_opcodeOf_eq_none ho]
  | some o =>
    have hop : opBits c.cmd = opcodeNumber o := (opcodeNumber_of_opcodeOf ho).symm
    rw [decode_of_opBits hop, malformedWord_of_opBits hop]
    cases unusedNonzero (opcodeFormat o) (fieldsOf c.cmd) <;> simp

/-- `IllegalCommand` comes from the decoder alone: what a legal word runs as ends otherwise. -/
theorem exec_not_raises_illegalCommand {i : Instr} {s t : State} (h : exec i s = .next t) :
    ¬RaisesError s .illegalCommand t := by
  rintro ⟨-, -, hillegal⟩
  obtain ⟨r, hresp, hclass⟩ := exec_response h
  have hr : r = errorResponse .illegalCommand := by simpa [hresp, errorResponse] using hillegal
  simp [hr, errorResponse] at hclass

theorem execute_raises_illegalCommand_iff (c : Command) (s : State) :
    (∃ t, execute c s = .next t ∧ RaisesError s .illegalCommand t) ↔ ∃ e, decode c = .error e := by
  obtain ⟨i, hdec, hexec⟩ | ⟨e, hdec, hexec⟩ := execute_cases c s
  · rw [hexec, hdec]
    refine iff_of_false ?_ nofun
    rintro ⟨t, ht, hraises⟩
    exact exec_not_raises_illegalCommand ht hraises
  · exact iff_of_true ⟨_, hexec, raiseError_raisesError s .illegalCommand⟩ ⟨e, hdec⟩

/-! ## Data words the format does not use (R25, R27) -/

/-- Words that differ in their data words alone run alike, if those make no difference to the command
that the word's opcode stands for. -/
theorem execute_congr_dataWords {c c' : Command} (hcmd : c'.cmd = c.cmd)
    (h : ∀ o, opBits c.cmd = opcodeNumber o →
      instrOf o (fieldsOf c.cmd) c.dh c.dl = instrOf o (fieldsOf c.cmd) c'.dh c'.dl) (s : State) :
    execute c s = execute c' s := by
  have hdec : decode c = decode c' := by
    cases ho : opcodeOf (opBits c.cmd) with
    | none => rw [decode_of_opcodeOf_eq_none ho, decode_of_opcodeOf_eq_none (hcmd ▸ ho)]
    | some o =>
      have hop : opBits c.cmd = opcodeNumber o := (opcodeNumber_of_opcodeOf ho).symm
      rw [decode_of_opBits hop, decode_of_opBits (hcmd ▸ hop), hcmd, h o hop]
  rw [execute, execute, hdec]

theorem instrOf_congr_dh {o : Opcode} (ho : o ≠ .bld) (f : Fields) (dh dh' dl : Word) :
    instrOf o f dh dl = instrOf o f dh' dl := by
  cases o with
  | bld => exact absurd rfl ho
  | _ => rfl

theorem fieldsOf_v_eq_zero {w : Word} (h : w.getLsbD 16 = false) : (fieldsOf w).v = 0 := by
  have hbit : (w.extractLsb' 16 1 != 0#1) = false := (flagField_ne_zero w).trans h
  simpa [fieldsOf] using hbit

/-- `DL` is an operand of `BLD`, and of the offset commands with `V = 1`. -/
theorem instrOf_congr_dataWords {o : Opcode} {f : Fields} (ho : o ≠ .bld)
    (hv : (o ≠ .boro ∧ o ≠ .bxro) ∨ f.v = 0) (dh dl dh' dl' : Word) :
    instrOf o f dh dl = instrOf o f dh' dl' := by
  cases o with
  | bld => exact absurd rfl ho
  | boro | bxro =>
    have hv : f.v = 0 := hv.resolve_left (by simp)
    simp [instrOf, valueArg, hv]
  | _ => rfl

/-- Settles O4: an illegal word is one that does not decode, and of a word that decodes the command
holds only the data words its format uses. -/
theorem illegalCommandInExactlyTwoCases : Obligations.IllegalCommandInExactlyTwoCases := by
  have hzeros : unassignedOp (opBits 0x00000000) = true := by decide
  have hones : unassignedOp (opBits 0xFFFFFFFF) = true := by decide
  refine ⟨fun c rest s h => ?_, fun dh dl => ⟨?_, ?_⟩, fun w dh dl dh' dl' s hw => ⟨?_, ?_⟩⟩
  · rw [step_of_command h, execute_raises_illegalCommand_iff, exists_decode_eq_error_iff]
  · exact (exists_decode_eq_error_iff _).mpr (.inl hzeros)
  · exact (exists_decode_eq_error_iff _).mpr (.inl hones)
  · refine execute_congr_dataWords (by rfl) (fun o ho => ?_) s
    refine instrOf_congr_dh ?_ (fieldsOf w) dh dh' dl
    rintro rfl
    exact hw ho
  · intro hv
    refine execute_congr_dataWords (by rfl) (fun o ho => ?_) s
    refine instrOf_congr_dataWords ?_ ?_ dh dl dh' dl'
    · rintro rfl
      exact hw ho
    · refine hv.imp (fun ⟨hboro, hbxro⟩ => ⟨?_, ?_⟩) fieldsOf_v_eq_zero
      · rintro rfl
        exact hboro ho
      · rintro rfl
        exact hbxro ho

end Sys2Proof.Machine

/-! Obligation O41 (`30_encoding.md` R33; `42_offset_combine.md` R46, R47): setting and toggling one
index. The contribution of the default value is one bit of the 64-bit form of R44, and the lanes
combine it bit by bit with the receiver. -/

namespace Sys2Proof.Machine

/-- The contribution is the value's bits, `shift` places up (R44). -/
theorem getLsbD_offc (value : Word) (shift : Nat) {k : Nat} (hk : k < 64) :
    (offc value shift).getLsbD k = (decide (shift ≤ k) && value.getLsbD (k - shift)) := by
  by_cases h : shift ≤ k
  · simp [offc, shl64, hk, h]
  · simp [offc, shl64, h, Nat.lt_of_not_le h]

/-- The half-word form of the contribution is its 64-bit form: in each case of R45, both buckets have
the bits that `getLsbD_offc` names. -/
theorem valueOf_offcLanes (value : Word) (shift : Nat) :
    valueOf (offcLanes value shift) = offc value shift := by
  apply BitVec.eq_of_getLsbD_eq
  intro k hk
  rw [getLsbD_offc value shift hk, valueOf, getLsbD_cat]
  unfold offcLanes
  split_ifs <;> simp [shl32, shr32] <;> grind

/-- The default value shifted by `63 - n` is the bit at index `n` alone. -/
theorem idx_offc_one {n m : Nat} (hn : n ≤ 63) (hm : m ≤ 63) :
    idx (offc 1 (63 - n)) m = decide (m = n) := by
  have hone : (1 : Word).getLsbD (63 - m - (63 - n)) = decide (63 - m - (63 - n) = 0) := by
    simp [BitVec.getLsbD_one]
  rw [idx_eq_getLsbD _ hm, getLsbD_offc _ _ (by omega), hone, ← Bool.decide_and, decide_eq_decide]
  omega

/-- What a lane-wise operation does to each index, given what it does to each bit of a lane (R38). -/
theorem idx_lanewise {f : Word → Word → Word} {g : Bool → Bool → Bool}
    (hf : ∀ x y k, (f x y).getLsbD k = g (x.getLsbD k) (y.getLsbD k)) (a b : Board) (m : Nat) :
    idx (valueOf (lanewise f a b)) m = g (idx (valueOf a) m) (idx (valueOf b) m) := by
  by_cases h : m < 32
  · simp only [idx_valueOf_of_lt _ h, lanewise, hf]
  · simp only [idx_valueOf_of_ge _ (Nat.not_lt.mp h), lanewise, hf]

/-- An offset command by `63 - n` with the default value combines a set bit into index `n`, and a
clear one into every other index. -/
theorem offsetCombine_defaultValue {f : Word → Word → Word} {g : Bool → Bool → Bool}
    (hf : ∀ x y k, (f x y).getLsbD k = g (x.getLsbD k) (y.getLsbD k)) (rd rs1 : BReg) {n : Nat}
    (hn : n ≤ 63) (s : State) :
    ∃ b, WritesBoard s rd b (offsetCombine f rd rs1 (63 - n) none s) ∧
      ∀ m, m ≤ 63 →
        idx (valueOf b) m = g (idx (valueOf (readBoard s rs1)) m) (decide (m = n)) := by
  obtain ⟨hout, -⟩ | ⟨-, h⟩ := offsetCombine_cases f rd rs1 (63 - n) none s
  · omega
  · rw [h]
    refine ⟨_, commit_writesBoard .., fun m hm => ?_⟩
    have hshift : ((63 : Int) - n).toNat = 63 - n := by omega
    rw [idx_lanewise hf, hshift, valueOf_offcLanes, valueOperand, idx_offc_one hn hm]

/-- Settles O41: `BORO` combines by "or", `BXRO` by "exclusive or". -/
theorem defaultValueSetsAndTogglesOneIndex : Obligations.DefaultValueSetsAndTogglesOneIndex := by
  intro rd rs1 n s hn
  obtain ⟨b, hwrites, hbits⟩ :=
    offsetCombine_defaultValue (f := (· ||| ·)) (fun _ _ _ => BitVec.getLsbD_or) rd rs1 hn s
  obtain ⟨b', hwrites', hbits'⟩ :=
    offsetCombine_defaultValue (f := (· ^^^ ·)) (fun _ _ _ => BitVec.getLsbD_xor) rd rs1 hn s
  exact ⟨⟨_, b, rfl, hwrites, hbits⟩, ⟨_, b', rfl, hwrites', hbits'⟩⟩

end Sys2Proof.Machine

/-! Obligation O60 (`30_encoding.md` R32, R33): what the pseudo-instructions expand to. A line is
expanded by the form of its mnemonic and then kept or rejected by the range of its immediate. -/

namespace Sys2Proof.Machine

theorem assembleOperands_of_expandLine {name : AsmName} {ops : List AsmOperand} {i : Instr}
    (h : expandLine name ops = some i) :
    assembleOperands name ops = if i.wellFormed then some i else none := by
  simp [assembleOperands, h]

theorem assembleOperands_eq_none {name : AsmName} {ops : List AsmOperand}
    (h : expandLine name ops = none) : assembleOperands name ops = none := by
  simp [assembleOperands, h]

theorem immFits_iff {n : Int} : immFits n = true ↔ -32768 ≤ n ∧ n ≤ 32767 := by
  simp [immFits]

/-- A line that stands for a command with an immediate is kept exactly when the immediate fits. -/
theorem assembleOperands_immediate {name : AsmName} {ops : List AsmOperand} {i : Instr} {n : Int}
    (h : expandLine name ops = some i) (hwf : i.wellFormed = immFits n) :
    (-32768 ≤ n → n ≤ 32767 → assembleOperands name ops = some i) ∧
    (n < -32768 ∨ n > 32767 → assembleOperands name ops = none) := by
  rw [assembleOperands_of_expandLine h, hwf]
  refine ⟨fun hmin hmax => if_pos (immFits_iff.mpr ⟨hmin, hmax⟩), fun hout => if_neg ?_⟩
  rw [immFits_iff]
  omega

theorem dataWord_of_lt {v : Nat} (h : v < 2 ^ 32) : dataWord v = some (BitVec.ofNat 32 v) := if_pos h

theorem dataWord_of_le {v : Nat} (h : 2 ^ 32 ≤ v) : dataWord v = none := if_neg (Nat.not_lt.mpr h)

/-- A line with an immediate and a data word is kept exactly when both fit. -/
theorem assembleOperands_immediate_dataWord {name : AsmName} {ops : List AsmOperand}
    {mk : Word → Instr} {n : Int} {v : Nat} (h : expandLine name ops = (dataWord v).map mk)
    (hwf : ∀ w, (mk w).wellFormed = immFits n) :
    (-32768 ≤ n → n ≤ 32767 → v < 2 ^ 32 →
      assembleOperands name ops = some (mk (BitVec.ofNat 32 v))) ∧
    (n < -32768 ∨ n > 32767 ∨ 2 ^ 32 ≤ v → assembleOperands name ops = none) := by
  by_cases hv : v < 2 ^ 32
  · rw [dataWord_of_lt hv] at h
    obtain ⟨hfits, hout⟩ := assembleOperands_immediate h (hwf _)
    exact ⟨fun hmin hmax _ => hfits hmin hmax, fun hor => hout (by omega)⟩
  · rw [dataWord_of_le (Nat.not_lt.mp hv)] at h
    exact ⟨fun _ _ hlt => absurd hlt hv, fun _ => assembleOperands_eq_none h⟩

/-- `BSET` and `BTGL` at an index of the board; every shift `63 - n` fits the immediate. -/
theorem assembleOperands_bitForm {name : AsmName} {mk : BReg → BReg → Int → Option Word → Instr}
    (hexp : ∀ ops, expandLine name ops = bitForm mk ops)
    (hwf : ∀ d s n, (mk d s n none).wellFormed = immFits n) (d s : BReg) {n : Int} (hmin : 0 ≤ n)
    (hmax : n ≤ 63) :
    assembleOperands name [.reg d, .reg s, .index n] = some (mk d s (63 - n) none) := by
  have h : expandLine name [.reg d, .reg s, .index n] = some (mk d s (63 - n) none) :=
    (hexp _).trans (if_neg (by omega))
  exact (assembleOperands_immediate h (hwf d s _)).1 (by omega) (by omega)

theorem assembleOperands_bitForm_outside {name : AsmName}
    {mk : BReg → BReg → Int → Option Word → Instr}
    (hexp : ∀ ops, expandLine name ops = bitForm mk ops) (d s : BReg) {n : Int}
    (hn : n < 0 ∨ n > 63) : assembleOperands name [.reg d, .reg s, .index n] = none :=
  assembleOperands_eq_none ((hexp _).trans (if_pos hn))

/-- The two lines of a shift command with one register, in place and in full. -/
theorem assembleOperands_shiftForm {name : AsmName} {mk : BReg → BReg → Int → Instr}
    (hexp : ∀ ops, expandLine name ops = shiftForm mk ops)
    (hwf : ∀ d s n, (mk d s n).wellFormed = immFits n) (d : BReg) (n : Int) :
    ∀ line ∈ [[AsmOperand.reg d, .imm n], [.reg d, .reg d, .imm n]],
      (-32768 ≤ n → n ≤ 32767 → assembleOperands name line = some (mk d d n)) ∧
      (n < -32768 ∨ n > 32767 → assembleOperands name line = none) := by
  simp only [List.forall_mem_cons]
  exact ⟨assembleOperands_immediate (hexp _) (hwf d d n),
    assembleOperands_immediate (hexp _) (hwf d d n), nofun⟩

/-- The four lines of an offset command with one register, without a value and with one. -/
theorem assembleOperands_offsetForm {name : AsmName} {mk : BReg → BReg → Int → Option Word → Instr}
    (hexp : ∀ ops, expandLine name ops = offsetForm mk ops)
    (hwf : ∀ d s n value, (mk d s n value).wellFormed = immFits n) (d : BReg) (n : Int) (v : Nat) :
    (∀ line ∈ [[AsmOperand.reg d, .imm n], [.reg d, .reg d, .imm n]],
      (-32768 ≤ n → n ≤ 32767 → assembleOperands name line = some (mk d d n none)) ∧
      (n < -32768 ∨ n > 32767 → assembleOperands name line = none)) ∧
    ∀ line ∈ [[AsmOperand.reg d, .imm n, .word v], [.reg d, .reg d, .imm n, .word v]],
      (-32768 ≤ n → n ≤ 32767 → v < 2 ^ 32 →
        assembleOperands name line = some (mk d d n (some (BitVec.ofNat 32 v)))) ∧
      (n < -32768 ∨ n > 32767 ∨ 2 ^ 32 ≤ v → assembleOperands name line = none) := by
  simp only [List.forall_mem_cons]
  have hvalue := fun w => hwf d d n (some w)
  exact ⟨⟨assembleOperands_immediate (hexp _) (hwf d d n none),
      assembleOperands_immediate (hexp _) (hwf d d n none), nofun⟩,
    assembleOperands_immediate_dataWord (hexp _) hvalue,
    assembleOperands_immediate_dataWord (hexp _) hvalue, nofun⟩

/-- Settles O60: the forms without an immediate by computation, those with one by its range check. -/
theorem pseudoInstructionsExpand : Obligations.PseudoInstructionsExpand := by
  unfold Obligations.PseudoInstructionsExpand
  -- one goal for each mnemonic; the lists of lines are left to the lemmas about the forms
  simp only [List.forall_mem_cons (p := fun om : Opcode × _ => _)]
  refine ⟨fun _ _ => rfl, fun d s n hmin hmax => ⟨?_, ?_⟩, fun d s n hn => ⟨?_, ?_⟩, ?unary, ?shift,
    ?offset, ?binary⟩
  · exact assembleOperands_bitForm (fun _ => rfl) (fun _ _ _ => rfl) d s hmin hmax
  · exact assembleOperands_bitForm (fun _ => rfl) (fun _ _ _ => rfl) d s hmin hmax
  · exact assembleOperands_bitForm_outside (fun _ => rfl) d s hn
  · exact assembleOperands_bitForm_outside (fun _ => rfl) d s hn
  case unary =>
    exact ⟨fun _ => ⟨rfl, rfl⟩, fun _ => ⟨rfl, rfl⟩, fun _ => ⟨rfl, rfl⟩, fun _ => ⟨rfl, rfl⟩,
      fun _ => ⟨rfl, rfl⟩, nofun⟩
  case shift =>
    exact ⟨assembleOperands_shiftForm (fun _ => rfl) (fun _ _ _ => rfl),
      assembleOperands_shiftForm (fun _ => rfl) (fun _ _ _ => rfl), nofun⟩
  case offset =>
    exact ⟨assembleOperands_offsetForm (fun _ => rfl) (fun _ _ _ _ => rfl),
      assembleOperands_offsetForm (fun _ => rfl) (fun _ _ _ _ => rfl), nofun⟩
  case binary =>
    exact ⟨fun _ _ => ⟨rfl, rfl⟩, fun _ _ => ⟨rfl, rfl⟩, fun _ _ => ⟨rfl, rfl⟩, nofun⟩

end Sys2Proof.Machine

/-! Obligations O19, O20, O21 and O22 (`40_construct_move.md` R34 to R37): construction, copy and
read-out. What each command does is `commit_writesBoard` or `respondWith_answersWords`. How its words
run is `runsAs_instrOf`, which holds of every row of R28's table. -/

namespace Sys2Proof.Machine

/-! ## Command words of one opcode (R28 to R30) -/

/-- With the opcode given, match and mask are the check of the unused fields. A word that meets them
decodes to the instruction of its fields, and any other word fails to decode. -/
theorem runsAs_instrOf (o : Opcode) :
    RunsAs (opcodeNumber o) (opcodeMatch o) (opcodeMask o)
      fun c => instrOf o (fieldsOf c.cmd) c.dh c.dl := by
  intro c rest s h hop
  rw [step_of_command h]
  refine ⟨fun hmatch => ?_, fun hmatch => ?_⟩
  · obtain ⟨-, hunused⟩ := (and_opcodeMask_eq_iff o c.cmd).mp hmatch
    exact execute_of_decode (decode_eq_ok_iff.mpr ⟨o, hop, hunused, rfl⟩) _
  · have hunused : unusedNonzero (opcodeFormat o) (fieldsOf c.cmd) = true := by
      simpa [and_opcodeMask_eq_iff, hop] using hmatch
    refine (execute_raises_illegalCommand_iff c _).mpr ⟨.unusedFieldNonzero, ?_⟩
    rw [decode_of_opBits hop, if_pos hunused]

/-! ## Copying a board (R36) -/

/-- A register written with the board of another register holds what that register still holds; the
two may be one. -/
theorem readBoard_eq_of_writesBoard_readBoard {s t : State} {rd rs1 : BReg}
    (h : WritesBoard s rd (readBoard s rs1) t) : readBoard t rd = readBoard t rs1 := by
  obtain ⟨hrd, hother, -, -⟩ := h
  by_cases hne : rs1 = rd
  · rw [hne]
  · rw [hrd, hother rs1 hne]

/-! ## The statements -/

/-- Settles O19: the write of the zero board, and the row of `BZERO`. -/
theorem bzeroWritesTheZeroBoard : Obligations.BzeroWritesTheZeroBoard :=
  ⟨fun rd s => ⟨_, rfl, commit_writesBoard s rd zeroBoard⟩, runsAs_instrOf .bzero⟩

/-- Settles O20: the write of the data words, and the row of `BLD`. -/
theorem bldWritesTheDataWords : Obligations.BldWritesTheDataWords :=
  ⟨fun rd dh dl s => ⟨_, rfl, commit_writesBoard s rd ⟨dh, dl⟩⟩, runsAs_instrOf .bld⟩

/-- Settles O21: registers are independent, so the copy equals its source and each keeps its board when
the other is written. -/
theorem bcopyCopiesTheBoard : Obligations.BcopyCopiesTheBoard := by
  refine ⟨fun rd rs1 s => ?_, runsAs_instrOf .bcopy⟩
  have hwrites := commit_writesBoard s rd (readBoard s rs1)
  refine ⟨_, rfl, hwrites, readBoard_eq_of_writesBoard_readBoard hwrites, fun hne b => ⟨?_, ?_⟩⟩
  · exact readBoard_writeBoard_of_ne _ b hne.symm
  · exact readBoard_writeBoard_of_ne _ b hne

/-- Settles O22: the answer with both buckets, and the row of `BRD`. -/
theorem brdAnswersTheTwoBuckets : Obligations.BrdAnswersTheTwoBuckets :=
  ⟨fun rs1 s => ⟨_, rfl, respondWith_answersWords s (readBoard s rs1).high (readBoard s rs1).low⟩,
    runsAs_instrOf .brd⟩

end Sys2Proof.Machine

/-! Obligations O23, O24, O25, O26, O38 and O39 (`41_logic.md` R38 to R43): bucket-wise logic. A logic
command writes the board that `lanewise` or `complement` makes of its sources. Its laws are those of
each bucket, and on the whole value they hold because the value is the two buckets appended. -/

namespace Sys2Proof.Machine

/-! ## The whole value (R38) -/

theorem valueOf_lanewise_and (a b : Board) :
    valueOf (lanewise (· &&& ·) a b) = valueOf a &&& valueOf b := BitVec.and_append.symm

theorem valueOf_lanewise_or (a b : Board) :
    valueOf (lanewise (· ||| ·) a b) = valueOf a ||| valueOf b := BitVec.or_append.symm

theorem valueOf_lanewise_xor (a b : Board) :
    valueOf (lanewise (· ^^^ ·) a b) = valueOf a ^^^ valueOf b := BitVec.xor_append.symm

/-! ## Laws of each bucket, taken to the board (R42, R43) -/

theorem lanewise_zeroBoard {f : Word → Word → Word} (hf : ∀ x, f x 0 = x) (b : Board) :
    lanewise f b zeroBoard = b := congrArg₂ Board.mk (hf b.high) (hf b.low)

theorem lanewise_and_zeroBoard (b : Board) : lanewise (· &&& ·) b zeroBoard = zeroBoard :=
  congrArg₂ Board.mk BitVec.and_zero BitVec.and_zero

theorem lanewise_xor_self (b : Board) : lanewise (· ^^^ ·) b b = zeroBoard :=
  congrArg₂ Board.mk BitVec.xor_self BitVec.xor_self

theorem complement_complement (b : Board) : complement (complement b) = b :=
  congrArg₂ Board.mk BitVec.not_not BitVec.not_not

/-- The complement of a bucket is what it lacks to `0xFFFFFFFF` (R42). -/
theorem complement_eq_sub (b : Board) :
    complement b = ⟨0xFFFFFFFF - b.high, 0xFFFFFFFF - b.low⟩ :=
  congrArg₂ Board.mk (BitVec.allOnes_sub_eq_not b.high).symm (BitVec.allOnes_sub_eq_not b.low).symm

/-! ## Operands that are not the destination (R43) -/

theorem exec_keeps_operands {i : Instr} {rd rs1 rs2 : BReg} (hrd : instrDestination i = some rd)
    (h1 : rd ≠ rs1) (h2 : rd ≠ rs2) (s : State) :
    ∃ t, exec i s = .next t ∧ readBoard t rs1 = readBoard s rs1 ∧
      readBoard t rs2 = readBoard s rs2 := by
  obtain ⟨t, ht, -, hother, -⟩ := exec_frame i s
  refine ⟨t, ht, hother rs1 ?_, hother rs2 ?_⟩
  · simpa [hrd] using h1
  · simpa [hrd] using h2

/-! ## The statements -/

/-- Settles O23: the write of the lane-wise "and", and the row of `BAND`. -/
theorem bandWritesTheBucketwiseAnd : Obligations.BandWritesTheBucketwiseAnd :=
  ⟨fun rd _ _ s => ⟨_, rfl, commit_writesBoard s rd (lanewise (· &&& ·) _ _)⟩, runsAs_instrOf .band⟩

/-- Settles O24: the write of the lane-wise "or", and the row of `BOR`. -/
theorem borWritesTheBucketwiseOr : Obligations.BorWritesTheBucketwiseOr :=
  ⟨fun rd _ _ s => ⟨_, rfl, commit_writesBoard s rd (lanewise (· ||| ·) _ _)⟩, runsAs_instrOf .bor⟩

/-- Settles O25: the write of the lane-wise "exclusive or", and the row of `BXOR`. -/
theorem bxorWritesTheBucketwiseXor : Obligations.BxorWritesTheBucketwiseXor :=
  ⟨fun rd _ _ s => ⟨_, rfl, commit_writesBoard s rd (lanewise (· ^^^ ·) _ _)⟩, runsAs_instrOf .bxor⟩

/-- Settles O26: the write of the complement, which is a difference, and the row of `BNOT`. -/
theorem bnotWritesTheComplement : Obligations.BnotWritesTheComplement := by
  refine ⟨fun rd rs1 s => ⟨_, rfl, ?_⟩, runsAs_instrOf .bnot⟩
  rw [← complement_eq_sub]
  exact commit_writesBoard s rd (complement (readBoard s rs1))

/-- Settles O38: the value is the two buckets appended, and `idx_lanewise` reads one index of it. -/
theorem bucketwiseIsBitwiseOnTheWholeValue : Obligations.BucketwiseIsBitwiseOnTheWholeValue := by
  intro a b
  refine ⟨valueOf_lanewise_and a b, valueOf_lanewise_or a b, valueOf_lanewise_xor a b, fun n _ => ?_⟩
  refine ⟨?_, ?_, ?_⟩
  · exact idx_lanewise (fun _ _ _ => BitVec.getLsbD_and) a b n
  · exact idx_lanewise (fun _ _ _ => BitVec.getLsbD_or) a b n
  · exact idx_lanewise (fun _ _ _ => BitVec.getLsbD_xor) a b n

/-- Settles O39: the laws of each bucket, and the frame of the four commands, which write `rd` alone. -/
theorem logicLaws : Obligations.LogicLaws := by
  refine ⟨fun b => ⟨complement_complement b, lanewise_and_zeroBoard b, ?_, lanewise_xor_self b, ?_⟩,
    fun rd rs1 rs2 s h1 h2 i hi => ?_⟩
  · exact lanewise_zeroBoard (fun _ => BitVec.or_zero) b
  · exact lanewise_zeroBoard (fun _ => BitVec.xor_zero) b
  · have hdestination :
        ∀ i ∈ [Instr.band rd rs1 rs2, .bor rd rs1 rs2, .bxor rd rs1 rs2, .bnot rd rs1],
          instrDestination i = some rd := by simp [instrDestination]
    exact exec_keeps_operands (hdestination i hi) h1 h2 s

end Sys2Proof.Machine

/-! Obligations O27, O28 and O40 (`42_offset_combine.md` R44 to R47): the offset commands and their
contribution. Both commands are `offsetCombine`, and a lane-wise operation that is one operation on the
whole value combines the receiver with the 64-bit contribution of R44, by `valueOf_offcLanes`. -/

namespace Sys2Proof.Machine

/-! ## The contribution (R44, R45) -/

theorem toNat_offc (value : Word) (shift : Nat) :
    (offc value shift).toNat = value.toNat * 2 ^ shift % 2 ^ 64 := by
  have hwide : (value.setWidth 64).toNat = value.toNat := BitVec.toNat_setWidth_of_le (by decide)
  rw [offc, shl64, BitVec.toNat_shiftLeft, hwide, Nat.shiftLeft_eq]

/-- A shift by at most 32 moves no bit of a 32-bit word beyond bit 63. -/
theorem toNat_mul_two_pow_lt (value : Word) {shift : Nat} (h : shift ≤ 32) :
    value.toNat * 2 ^ shift < 2 ^ 64 :=
  calc value.toNat * 2 ^ shift
    _ ≤ value.toNat * 2 ^ 32 := Nat.mul_le_mul_left _ (Nat.pow_le_pow_right (by decide) h)
    _ < 2 ^ 32 * 2 ^ 32 := Nat.mul_lt_mul_of_pos_right value.isLt (by decide)
    _ = 2 ^ 64 := by decide

/-! R45's four cases, each the branch of `offcLanes` for its range of shifts. -/

theorem offcLanes_zero (value : Word) : offcLanes value 0 = ⟨0, value⟩ := rfl

theorem offcLanes_of_lt {value : Word} {shift : Nat} (hpos : 0 < shift) (h : shift < 32) :
    offcLanes value shift = ⟨shr32 value (32 - shift), shl32 value shift⟩ := by
  rw [offcLanes, if_neg hpos.ne', if_pos h]

theorem offcLanes_thirtyTwo (value : Word) : offcLanes value 32 = ⟨value, 0⟩ := rfl

theorem offcLanes_of_gt {value : Word} {shift : Nat} (h : 32 < shift) :
    offcLanes value shift = ⟨shl32 value (shift - 32), 0⟩ := by
  rw [offcLanes, if_neg (by omega), if_neg (by omega), if_neg (by omega)]

/-! ## The two ends of an offset command (R46, R47) -/

/-- Within the range, an offset command whose lanes together do `g` to the whole value combines the
receiver's value with the contribution. -/
theorem offsetCombine_writesBoard {f : Word → Word → Word} {g : Value → Value → Value}
    (hfg : ∀ a b, valueOf (lanewise f a b) = g (valueOf a) (valueOf b)) (rd rs1 : BReg)
    {shift : Int} (hmin : 0 ≤ shift) (hmax : shift ≤ 63) (value : Option Word) (s : State) :
    ∃ b, WritesBoard s rd b (offsetCombine f rd rs1 shift value s) ∧
      valueOf b = g (valueOf (readBoard s rs1)) (offc (valueOperand value) shift.toNat) := by
  obtain ⟨hout, -⟩ | ⟨-, h⟩ := offsetCombine_cases f rd rs1 shift value s
  · omega
  · rw [h]
    refine ⟨_, commit_writesBoard .., ?_⟩
    rw [hfg, valueOf_offcLanes]

theorem offsetCombine_raisesError (f : Word → Word → Word) (rd rs1 : BReg) {shift : Int}
    (hout : OutsideBoard shift) (value : Option Word) (s : State) :
    RaisesError s .outOfRange (offsetCombine f rd rs1 shift value s) := by
  obtain ⟨-, h⟩ | ⟨hin, -⟩ := offsetCombine_cases f rd rs1 shift value s
  · rw [h]
    exact raiseError_raisesError s .outOfRange
  · exact absurd hout hin

/-! ## The value operand of a command word (R27) -/

theorem fieldsOf_v_eq_one_iff (w : Word) : (fieldsOf w).v = 1 ↔ w.getLsbD 16 = true := by
  have hbit : ∀ v : BitVec 1, v = 1 ↔ (v != 0) = true := by decide
  exact (hbit _).trans (Bool.eq_iff_iff.mp (flagField_ne_zero w))

/-- The decoder's optional value is the one that `CMD[16]` and `DL` give. -/
theorem valueArg_fieldsOf (c : Command) : valueArg (fieldsOf c.cmd) c.dl = valueGiven c := by
  simp only [valueArg, valueGiven, fieldsOf_v_eq_one_iff]

/-! ## The statements -/

/-- Settles O27: the lanes "or" the contribution into the receiver, and the row of `BORO`. -/
theorem boroOrsTheContribution : Obligations.BoroOrsTheContribution := by
  refine ⟨fun rd rs1 shift value s => ⟨fun hmin hmax => ?_, fun hout => ?_⟩, ?_⟩
  · obtain ⟨b, hwrites, hvalue⟩ :=
      offsetCombine_writesBoard valueOf_lanewise_or rd rs1 hmin hmax value s
    refine ⟨_, b, rfl, hwrites, ?_⟩
    cases value <;> exact hvalue
  · exact ⟨_, rfl, offsetCombine_raisesError (· ||| ·) rd rs1 hout value s⟩
  · simp only [← valueArg_fieldsOf]
    exact runsAs_instrOf .boro

/-- Settles O28: the lanes "exclusive or" the contribution into the receiver, and the row of `BXRO`. -/
theorem bxroXorsTheContribution : Obligations.BxroXorsTheContribution := by
  refine ⟨fun rd rs1 shift value s => ⟨fun hmin hmax => ?_, fun hout => ?_⟩, ?_⟩
  · obtain ⟨b, hwrites, hvalue⟩ :=
      offsetCombine_writesBoard valueOf_lanewise_xor rd rs1 hmin hmax value s
    refine ⟨_, b, rfl, hwrites, ?_⟩
    cases value <;> exact hvalue
  · exact ⟨_, rfl, offsetCombine_raisesError (· ^^^ ·) rd rs1 hout value s⟩
  · simp only [← valueArg_fieldsOf]
    exact runsAs_instrOf .bxro

/-- Settles O40: the contribution as a number, R45's cases, and the two lanes read together. -/
theorem offsetLanesMakeTheContribution : Obligations.OffsetLanesMakeTheContribution := by
  intro value shift _
  refine ⟨toNat_offc value shift, toNat_mul_two_pow_lt value, ?_, offcLanes_of_lt, ?_,
    offcLanes_of_gt, valueOf_offcLanes value shift⟩
  · rintro rfl
    exact offcLanes_zero value
  · rintro rfl
    exact offcLanes_thirtyTwo value

end Sys2Proof.Machine

/-! Obligations O29, O30, O42, O43 and O44 (`43_shift.md` R48 to R54): the whole-board shifts. The
half-word forms are shifts of the whole value, by `valueOf_shlLanes` and `valueOf_shrLanes`, so a
law of boards is a law of 64-bit shifts. Both commands are `shiftBoard`. -/

namespace Sys2Proof.Machine

/-! ## The 64-bit shifts (R48, R50) -/

theorem toNat_shl64 (v : Value) (n : Nat) : (shl64 v n).toNat = v.toNat * 2 ^ n % 2 ^ 64 := by
  rw [shl64, BitVec.toNat_shiftLeft, Nat.shiftLeft_eq]

theorem toNat_shr64 (v : Value) (n : Nat) : (shr64 v n).toNat = v.toNat / 2 ^ n := by
  rw [shr64, BitVec.toNat_ushiftRight, Nat.shiftRight_eq_div_pow]

theorem shl64_of_ge (v : Value) {n : Nat} (h : 64 ≤ n) : shl64 v n = 0 :=
  BitVec.shiftLeft_eq_zero h

theorem shr64_of_ge (v : Value) {n : Nat} (h : 64 ≤ n) : shr64 v n = 0 :=
  BitVec.ushiftRight_eq_zero h

@[simp] theorem shl64_zero (v : Value) : shl64 v 0 = v := BitVec.shiftLeft_zero v

@[simp] theorem shr64_zero (v : Value) : shr64 v 0 = v := BitVec.ushiftRight_zero v

theorem shl64_shl64 (v : Value) (m n : Nat) : shl64 (shl64 v m) n = shl64 v (m + n) :=
  (BitVec.shiftLeft_add v m n).symm

theorem shr64_shr64 (v : Value) (m n : Nat) : shr64 (shr64 v m) n = shr64 v (m + n) :=
  (BitVec.shiftRight_add v m n).symm

theorem getLsbD_shl64 (v : Value) (n : Nat) {k : Nat} (hk : k ≤ 63) :
    (shl64 v n).getLsbD k = (decide (n ≤ k) && v.getLsbD (k - n)) := by
  have hlt : k < 64 := by omega
  rw [shl64, BitVec.getLsbD_shiftLeft]
  by_cases h : n ≤ k <;> simp [h, hlt]

/-- Zeros enter at the top: beyond value-bit 63 there is no bit to move down. -/
theorem getLsbD_shr64 (v : Value) (n k : Nat) :
    (shr64 v n).getLsbD k = (decide (k + n ≤ 63) && v.getLsbD (k + n)) := by
  rw [shr64, BitVec.getLsbD_ushiftRight, Nat.add_comm n k]
  by_cases h : k + n ≤ 63
  · simp [h]
  · simp [h, BitVec.getLsbD_of_ge v (k + n) (by omega)]

/-- Index `i` is value-bit `63 - i`, so a left shift moves bits to lower indices (R48). -/
theorem idx_shl64 (v : Value) (n : Nat) {i : Nat} (hi : i ≤ 63) :
    idx (shl64 v n) i = (decide (i + n ≤ 63) && idx v (i + n)) := by
  rw [idx_eq_getLsbD _ hi, getLsbD_shl64 v n (by omega)]
  by_cases h : i + n ≤ 63
  · have hle : n ≤ 63 - i := by omega
    simp [h, hle, idx_eq_getLsbD v h, Nat.sub_sub]
  · have hgt : ¬n ≤ 63 - i := by omega
    simp [h, hgt]

/-- A right shift moves bits to higher indices (R50). -/
theorem idx_shr64 (v : Value) (n : Nat) {i : Nat} (hi : i ≤ 63) :
    idx (shr64 v n) i = (decide (n ≤ i) && idx v (i - n)) := by
  rw [idx_eq_getLsbD _ hi, getLsbD_shr64]
  by_cases h : n ≤ i
  · have hbit : 63 - i + n = 63 - (i - n) := by omega
    simp [h, idx_eq_getLsbD v (n := i - n) (by omega), hbit]
  · have hgt : ¬63 - i + n ≤ 63 := by omega
    simp [h, hgt]

/-- A left shift loses the `n` most significant bits, and a right shift by `n` brings the others
back (R54). -/
theorem getLsbD_shr64_shl64 (v : Value) (n k : Nat) :
    (shr64 (shl64 v n) n).getLsbD k = (decide (k + n ≤ 63) && v.getLsbD k) := by
  rw [getLsbD_shr64]
  by_cases h : k + n ≤ 63
  · simp [h, getLsbD_shl64 v n h]
  · simp [h]

/-! ## The carry masks (R49, R51) -/

theorem getLsbD_top32 (n k : Nat) :
    (top32 n).getLsbD k = (decide (k < 32) && decide (32 - n ≤ k)) := by
  have hpos : 0 < 2 ^ (32 - n) := Nat.two_pow_pos _
  have hle : 2 ^ (32 - n) ≤ 2 ^ 32 := Nat.pow_le_pow_right (by decide) (by omega)
  have hpred : 2 ^ 32 - 2 ^ (32 - n) = 2 ^ 32 - ((2 ^ (32 - n) - 1) + 1) := by omega
  rw [top32, BitVec.getLsbD_ofNat, hpred, Nat.testBit_two_pow_sub_succ (by omega),
    Nat.testBit_two_pow_sub_one]
  simp only [← decide_not, Nat.not_lt, Bool.and_self_left]

theorem getLsbD_bot32 (n k : Nat) : (bot32 n).getLsbD k = (decide (k < 32) && decide (k < n)) := by
  rw [bot32, BitVec.getLsbD_ofNat, Nat.testBit_two_pow_sub_one]

/-- The bits that `top32 n` clears are those that the move by `32 - n` drops. -/
theorem shr32_and_top32 (x : Word) (n : Nat) :
    shr32 (x &&& top32 n) (32 - n) = shr32 x (32 - n) := by
  apply BitVec.eq_of_getLsbD_eq
  intro k _
  simp only [shr32, BitVec.getLsbD_ushiftRight, BitVec.getLsbD_and, getLsbD_top32]
  by_cases h : 32 - n + k < 32
  · simp [h]
  · simp [BitVec.getLsbD_of_ge x (32 - n + k) (by omega)]

/-- The bits that `bot32 n` clears are those that the move by `32 - n` drops. -/
theorem shl32_and_bot32 (x : Word) {n : Nat} (hn : n ≤ 32) :
    shl32 (x &&& bot32 n) (32 - n) = shl32 x (32 - n) := by
  apply BitVec.eq_of_getLsbD_eq
  intro k hk
  simp only [shl32, BitVec.getLsbD_shiftLeft, BitVec.getLsbD_and, getLsbD_bot32]
  by_cases h : k < 32 - n
  · simp [h]
  · have h32 : k - (32 - n) < 32 := by omega
    have hcarry : k - (32 - n) < n := by omega
    simp [h32, hcarry]

/-! ## The half-word forms, branch by branch (R49, R51) -/

theorem shlLanes_of_ge (b : Board) {n : Nat} (h : 64 ≤ n) : shlLanes b n = ⟨0, 0⟩ := if_pos h

theorem shrLanes_of_ge (b : Board) {n : Nat} (h : 64 ≤ n) : shrLanes b n = ⟨0, 0⟩ := if_pos h

theorem shlLanes_of_gt (b : Board) {n : Nat} (h : 32 < n) (h64 : n < 64) :
    shlLanes b n = ⟨shl32 b.low (n - 32), 0⟩ := by
  rw [shlLanes, if_neg (by omega), if_pos h]

theorem shrLanes_of_gt (b : Board) {n : Nat} (h : 32 < n) (h64 : n < 64) :
    shrLanes b n = ⟨0, shr32 b.high (n - 32)⟩ := by
  rw [shrLanes, if_neg (by omega), if_pos h]

theorem shlLanes_of_le (b : Board) {n : Nat} (h : n ≤ 32) :
    shlLanes b n =
      ⟨shl32 b.high n ||| shr32 (b.low &&& top32 n) (32 - n), shl32 b.low n⟩ := by
  rw [shlLanes, if_neg (by omega), if_neg (by omega)]

theorem shrLanes_of_le (b : Board) {n : Nat} (h : n ≤ 32) :
    shrLanes b n =
      ⟨shr32 b.high n, shr32 b.low n ||| shl32 (b.high &&& bot32 n) (32 - n)⟩ := by
  rw [shrLanes, if_neg (by omega), if_neg (by omega)]

theorem shlLanes_thirtyTwo (b : Board) : shlLanes b 32 = ⟨b.low, 0⟩ := by
  rw [shlLanes_of_le b le_rfl, shr32_and_top32]
  simp [shl32, shr32]

theorem shrLanes_thirtyTwo (b : Board) : shrLanes b 32 = ⟨0, b.high⟩ := by
  rw [shrLanes_of_le b le_rfl, shl32_and_bot32 _ le_rfl]
  simp [shl32, shr32, BitVec.ushiftRight_eq_zero]

/-! ## The half-word forms are the 64-bit shifts (R49, R51) -/

theorem valueOf_shlLanes (b : Board) (n : Nat) : valueOf (shlLanes b n) = shl64 (valueOf b) n := by
  apply BitVec.eq_of_getLsbD_eq
  intro k hk
  rw [getLsbD_shl64 _ n (by omega), valueOf, valueOf, getLsbD_cat, getLsbD_cat]
  by_cases h64 : 64 ≤ n
  · rw [shlLanes_of_ge b h64]
    grind
  by_cases h32 : 32 < n
  · rw [shlLanes_of_gt b h32 (by omega)]
    simp only [shl32, BitVec.getLsbD_shiftLeft]
    grind
  · rw [shlLanes_of_le b (by omega), shr32_and_top32]
    simp only [shl32, shr32, BitVec.getLsbD_or, BitVec.getLsbD_shiftLeft,
      BitVec.getLsbD_ushiftRight]
    grind

theorem valueOf_shrLanes (b : Board) (n : Nat) : valueOf (shrLanes b n) = shr64 (valueOf b) n := by
  apply BitVec.eq_of_getLsbD_eq
  intro k hk
  rw [getLsbD_shr64, valueOf, valueOf, getLsbD_cat, getLsbD_cat]
  by_cases h64 : 64 ≤ n
  · rw [shrLanes_of_ge b h64]
    grind
  by_cases h32 : 32 < n
  · rw [shrLanes_of_gt b h32 (by omega)]
    simp only [shr32, BitVec.getLsbD_ushiftRight]
    grind
  · rw [shrLanes_of_le b (by omega), shl32_and_bot32 _ (by omega)]
    simp only [shl32, shr32, BitVec.getLsbD_or, BitVec.getLsbD_shiftLeft,
      BitVec.getLsbD_ushiftRight]
    grind

/-! ## Laws of the value, taken to the board (R54) -/

theorem shlLanes_zero (b : Board) : shlLanes b 0 = b := by
  rw [← valueOf_inj, valueOf_shlLanes, shl64_zero]

theorem shrLanes_zero (b : Board) : shrLanes b 0 = b := by
  rw [← valueOf_inj, valueOf_shrLanes, shr64_zero]

theorem shlLanes_shlLanes (b : Board) (m n : Nat) :
    shlLanes (shlLanes b m) n = shlLanes b (m + n) := by
  simp only [← valueOf_inj, valueOf_shlLanes, shl64_shl64]

theorem shrLanes_shrLanes (b : Board) (m n : Nat) :
    shrLanes (shrLanes b m) n = shrLanes b (m + n) := by
  simp only [← valueOf_inj, valueOf_shrLanes, shr64_shr64]

/-! ## The two ends of a shift command (R52, R53) -/

theorem shiftBoard_writesBoard (f : Board → Nat → Board) (rd rs1 : BReg) {n : Int} (hn : 0 ≤ n)
    (s : State) : WritesBoard s rd (f (readBoard s rs1) n.toNat) (shiftBoard f rd rs1 n s) := by
  obtain ⟨hneg, -⟩ | ⟨-, h⟩ := shiftBoard_cases f rd rs1 n s
  · omega
  · rw [h]
    exact commit_writesBoard ..

theorem shiftBoard_raisesError (f : Board → Nat → Board) (rd rs1 : BReg) {n : Int} (hn : n < 0)
    (s : State) : RaisesError s .outOfRange (shiftBoard f rd rs1 n s) := by
  obtain ⟨-, h⟩ | ⟨hnonneg, -⟩ := shiftBoard_cases f rd rs1 n s
  · rw [h]
    exact raiseError_raisesError s .outOfRange
  · exact absurd hn hnonneg

/-! ## The statements -/

/-- Settles O29: the two ends of a shift, the left shift as a number, and the row of `BSHL`. -/
theorem bshlShiftsTheWholeValueLeft : Obligations.BshlShiftsTheWholeValueLeft := by
  refine ⟨fun rd rs1 n s => ⟨fun hn => ?_, fun hn => ?_⟩, runsAs_instrOf .bshl⟩
  · refine ⟨_, _, rfl, shiftBoard_writesBoard shlLanes rd rs1 hn s, ?_⟩
    rw [valueOf_shlLanes, toNat_shl64]
  · exact ⟨_, rfl, shiftBoard_raisesError shlLanes rd rs1 hn s⟩

/-- Settles O30: the two ends of a shift, the right shift as a number, and the row of `BSHR`. -/
theorem bshrShiftsTheWholeValueRight : Obligations.BshrShiftsTheWholeValueRight := by
  refine ⟨fun rd rs1 n s => ⟨fun hn => ?_, fun hn => ?_⟩, runsAs_instrOf .bshr⟩
  · refine ⟨_, _, rfl, shiftBoard_writesBoard shrLanes rd rs1 hn s, ?_⟩
    rw [valueOf_shrLanes, toNat_shr64]
  · exact ⟨_, rfl, shiftBoard_raisesError shrLanes rd rs1 hn s⟩

/-- Settles O42: each shift as a number, bit by bit, and index by index. -/
theorem shiftsMoveBitsAlongTheIndex : Obligations.ShiftsMoveBitsAlongTheIndex := fun v n =>
  ⟨toNat_shl64 v n, toNat_shr64 v n, fun h => ⟨shl64_of_ge v h, shr64_of_ge v h⟩,
    fun k hk => ⟨getLsbD_shl64 v n hk, getLsbD_shr64 v n k, idx_shl64 v n hk, idx_shr64 v n hk⟩⟩

/-- Settles O43: the half-word forms as values, and the branch of each range of amounts. -/
theorem shiftLanesCarryAcrossTheBoundary : Obligations.ShiftLanesCarryAcrossTheBoundary := by
  intro b n
  refine ⟨valueOf_shlLanes b n, valueOf_shrLanes b n, fun h => ?_, fun h h64 => ?_, fun h => ?_,
    ?_, ?_⟩
  · exact ⟨shlLanes_of_ge b h, shrLanes_of_ge b h⟩
  · exact ⟨shlLanes_of_gt b h h64, shrLanes_of_gt b h h64⟩
  · exact ⟨shlLanes_of_le b h, shrLanes_of_le b h⟩
  · rintro rfl
    exact ⟨shlLanes_zero b, shrLanes_zero b⟩
  · rintro rfl
    exact ⟨shlLanes_thirtyTwo b, shrLanes_thirtyTwo b⟩

/-- Settles O44: the laws of the 64-bit shifts, taken to boards. -/
theorem shiftLaws : Obligations.ShiftLaws := by
  intro b
  refine ⟨?_, ?_, shlLanes_zero b, shrLanes_zero b, fun m n => ?_, fun n k _ => ?_⟩
  · rw [shlLanes_of_ge b le_rfl]
    rfl
  · rw [shrLanes_of_ge b le_rfl]
    rfl
  · exact ⟨shlLanes_shlLanes b m n, shrLanes_shrLanes b m n⟩
  · rw [valueOf_shrLanes, valueOf_shlLanes, getLsbD_shr64_shl64]

end Sys2Proof.Machine

/-! Obligations O31 and O32 (`44_query.md` R55, R56): the queries. Both answer a bit as a word: `BGET`
the bit of R7's numbering, by `bitAtIndex_eq_bitWord_idx`, and `BEMP` whether the value is 0, by
`isEmpty_iff`. -/

namespace Sys2Proof.Machine

/-! ## The bit at an index (R55) -/

/-- A bucket shifted by `k` and masked with 1 is its bit `k` as a word. -/
theorem shr32_and_one (x : Word) (k : Nat) : shr32 x k &&& 1 = bitWord (x.getLsbD k) := by
  have hword : ∀ p : Bool, (BitVec.ofBool p).setWidth 32 = bitWord p := by decide
  calc shr32 x k &&& 1
    _ = (BitVec.ofBool ((x >>> k).getLsbD 0)).setWidth 32 :=
      BitVec.and_one_eq_setWidth_ofBool_getLsbD
    _ = bitWord ((x >>> k).getLsbD 0) := hword _
    _ = bitWord (x.getLsbD k) := by rw [BitVec.getLsbD_ushiftRight, Nat.add_zero]

/-- The two cases of R55's pseudocode are those of R7's numbering. -/
theorem bitAtIndex_eq_bitWord_idx (b : Board) (n : Nat) :
    bitAtIndex b n = bitWord (idx (valueOf b) n) := by
  by_cases h : n < 32
  · rw [bitAtIndex, if_pos h, shr32_and_one, idx_valueOf_of_lt b h]
  · rw [bitAtIndex, if_neg h, shr32_and_one, idx_valueOf_of_ge b (Nat.not_lt.mp h)]

/-! ## The zero board (R56) -/

/-- Both buckets are zero exactly when the value is 0, the value of the zero board. -/
theorem isEmpty_iff (b : Board) : isEmpty b = true ↔ valueOf b = 0 :=
  calc isEmpty b = true
    _ ↔ b.high = 0 ∧ b.low = 0 := by rw [isEmpty, Bool.and_eq_true, beq_iff_eq, beq_iff_eq]
    _ ↔ b = zeroBoard := (Board.mk.injEq b.high b.low 0 0).to_iff.symm
    _ ↔ valueOf b = valueOf zeroBoard := valueOf_inj.symm

/-! ## The two ends of `BGET` (R55) -/

theorem exec_bget_of_outside {n : Int} (hout : OutsideBoard n) (rs1 : BReg) (s : State) :
    exec (.bget rs1 n) s = .next (raiseError s .outOfRange) := if_pos hout

theorem exec_bget_of_inside {n : Int} (hin : ¬OutsideBoard n) (rs1 : BReg) (s : State) :
    exec (.bget rs1 n) s =
      .next (respondWith s 0 (bitWord (idx (valueOf (readBoard s rs1)) n.toNat))) := by
  rw [← bitAtIndex_eq_bitWord_idx]
  exact if_neg hin

/-! ## The statements -/

/-- Settles O31: the two ends of `BGET`, R7's numbering of the bit, and the row of `BGET`. -/
theorem bgetAnswersTheBitAtTheIndex : Obligations.BgetAnswersTheBitAtTheIndex := by
  refine ⟨fun rs1 n s => ⟨fun hmin hmax => ?_, fun hout => ?_⟩, runsAs_instrOf .bget⟩
  · refine ⟨_, exec_bget_of_inside (by omega) rs1 s, ?_⟩
    rw [idx_eq_getLsbD _ (by omega)]
    exact respondWith_answersWords s 0 (bitWord _)
  · exact ⟨_, exec_bget_of_outside hout rs1 s, raiseError_raisesError s .outOfRange⟩

/-- Settles O32: the answer `isEmpty`, which is of the whole value, and the row of `BEMP`. -/
theorem bempAnswersWhetherTheBoardIsZero : Obligations.BempAnswersWhetherTheBoardIsZero := by
  refine ⟨fun rs1 s => ⟨_, rfl, ?_⟩, runsAs_instrOf .bemp⟩
  simp only [← isEmpty_iff]
  exact respondWith_answersWords s 0 (bitWord _)

end Sys2Proof.Machine

/-! Obligations O45 and O49 (`45_transform.md` R57, R62, R67): grid transforms and their laws. A value is
the set of its squares, so `gridTransform_eq_iff` says all that a transform by a bijection does; each law
of transforms is then a law of their square maps. -/

namespace Sys2Proof.Machine

/-! ## A value index by index (R4, R7) -/

@[simp] theorem idx_zero (n : Nat) : idx 0 n = false := by
  simp [idx, hi32, lo32]

@[simp] theorem idx_and (a b : Value) (n : Nat) : idx (a &&& b) n = (idx a n && idx b n) := by
  by_cases h : n < 32 <;> simp [idx, h, hi32, lo32, BitVec.extractLsb'_and]

@[simp] theorem idx_or (a b : Value) (n : Nat) : idx (a ||| b) n = (idx a n || idx b n) := by
  by_cases h : n < 32 <;> simp [idx, h, hi32, lo32, BitVec.extractLsb'_or]

@[simp] theorem idx_xor (a b : Value) (n : Nat) : idx (a ^^^ b) n = (idx a n ^^ idx b n) := by
  by_cases h : n < 32 <;> simp [idx, h, hi32, lo32, BitVec.extractLsb'_xor]

theorem idx_not (a : Value) {n : Nat} (hn : n ≤ 63) : idx (~~~a) n = !idx a n := by
  have hbit : 63 - n < 64 := by omega
  simp [idx_eq_getLsbD _ hn, hbit]

/-! ## A value square by square (R8) -/

theorem squareIndex_le (q : Square) : squareIndex q ≤ 63 := Nat.le_of_lt_succ (squareIndex_lt q)

@[simp] theorem idx_not_squareIndex (a : Value) (q : Square) :
    idx (~~~a) (squareIndex q) = !idx a (squareIndex q) := idx_not a (squareIndex_le q)

/-- Every index is the index of the square in its row and column. -/
theorem exists_squareIndex_eq {n : Nat} (hn : n ≤ 63) : ∃ q, squareIndex q = n :=
  ⟨(⟨n / 8, by omega⟩, ⟨n % 8, by omega⟩), Nat.div_add_mod n 8⟩

theorem eq_of_idx_eq {v w : Value} (h : ∀ n, n ≤ 63 → idx v n = idx w n) : v = w := by
  apply BitVec.eq_of_getLsbD_eq
  intro k hk
  have hbit := h (63 - k) (by omega)
  rwa [idx_eq_getLsbD v (by omega), idx_eq_getLsbD w (by omega), Nat.sub_sub_self (by omega)] at hbit

theorem eq_of_idx_squareIndex_eq {v w : Value}
    (h : ∀ q, idx v (squareIndex q) = idx w (squareIndex q)) : v = w := by
  apply eq_of_idx_eq
  intro n hn
  obtain ⟨q, rfl⟩ := exists_squareIndex_eq hn
  exact h q

/-! ## Grid transforms by a bijection (R57) -/

section
variable {p p' : Square → Square}

/-- No other square is sent to the image of `q`, so its content there is that of `q`. -/
theorem idx_gridTransform (hp : Function.Bijective p) (v : Value) (q : Square) :
    idx (gridTransform v p) (squareIndex (p q)) = idx v (squareIndex q) := by
  have himage : ∀ q', 63 - squareIndex (p q') = 63 - squareIndex (p q) ↔ q' = q := by
    intro q'
    refine ⟨fun h => hp.injective (squareIndex_inj ?_), fun h => by rw [h]⟩
    have := squareIndex_le (p q)
    have := squareIndex_le (p q')
    omega
  rw [idx_eq_getLsbD _ (squareIndex_le _), getLsbD_gridTransform v p _ (by omega), Bool.eq_iff_iff]
  simp [himage, mem_allSquares]

/-- A grid transform is the one value that has at the image of each square what `v` has there. -/
theorem gridTransform_eq_iff (hp : Function.Bijective p) {v w : Value} :
    gridTransform v p = w ↔ ∀ q, idx w (squareIndex (p q)) = idx v (squareIndex q) := by
  refine ⟨fun h q => h ▸ idx_gridTransform hp v q, fun h => eq_of_idx_squareIndex_eq fun q' => ?_⟩
  obtain ⟨q, rfl⟩ := hp.surjective q'
  rw [idx_gridTransform hp, h]

theorem gridTransform_gridTransform (hp : Function.Bijective p) (hp' : Function.Bijective p')
    (v : Value) : gridTransform (gridTransform v p) p' = gridTransform v (p' ∘ p) := by
  refine ((gridTransform_eq_iff (hp'.comp hp)).mpr fun q => ?_).symm
  exact (idx_gridTransform hp' _ (p q)).trans (idx_gridTransform hp v q)

theorem gridTransform_id (v : Value) : gridTransform v id = v :=
  (gridTransform_eq_iff Function.bijective_id).mpr fun _ => rfl

/-- A transform by a map that is its own inverse. -/
theorem gridTransform_involutive (hp : Function.Involutive p) (v : Value) :
    gridTransform (gridTransform v p) p = v := by
  rw [gridTransform_gridTransform hp.bijective hp.bijective, hp.comp_self, gridTransform_id]

theorem gridTransform_zero (hp : Function.Bijective p) : gridTransform 0 p = 0 :=
  (gridTransform_eq_iff hp).mpr fun q => by rw [idx_zero, idx_zero]

theorem gridTransform_not (hp : Function.Bijective p) (a : Value) :
    gridTransform (~~~a) p = ~~~(gridTransform a p) :=
  (gridTransform_eq_iff hp).mpr fun q => by simp only [idx_not_squareIndex, idx_gridTransform hp]

theorem gridTransform_and (hp : Function.Bijective p) (a b : Value) :
    gridTransform (a &&& b) p = gridTransform a p &&& gridTransform b p :=
  (gridTransform_eq_iff hp).mpr fun q => by simp only [idx_and, idx_gridTransform hp]

theorem gridTransform_or (hp : Function.Bijective p) (a b : Value) :
    gridTransform (a ||| b) p = gridTransform a p ||| gridTransform b p :=
  (gridTransform_eq_iff hp).mpr fun q => by simp only [idx_or, idx_gridTransform hp]

theorem gridTransform_xor (hp : Function.Bijective p) (a b : Value) :
    gridTransform (a ^^^ b) p = gridTransform a p ^^^ gridTransform b p :=
  (gridTransform_eq_iff hp).mpr fun q => by simp only [idx_xor, idx_gridTransform hp]

/-- The all-ones board is the complement of the zero board. -/
theorem gridTransform_allOnes (hp : Function.Bijective p) :
    gridTransform 0xFFFFFFFFFFFFFFFF p = 0xFFFFFFFFFFFFFFFF := by
  have hones : (0xFFFFFFFFFFFFFFFF : Value) = ~~~0 := by decide
  rw [hones, gridTransform_not hp, gridTransform_zero hp]

end

/-! ## The number of set bits (R57) -/

/-- The value-bit of a square: value-bits count against the index (R4). -/
def squareBit (q : Square) : Fin 64 := ⟨63 - squareIndex q, by omega⟩

theorem squareBit_bijective : Function.Bijective squareBit := by
  refine (Fintype.bijective_iff_injective_and_card squareBit).mpr ⟨fun q q' h => ?_, by simp⟩
  have hbits : 63 - squareIndex q = 63 - squareIndex q' := congrArg Fin.val h
  have := squareIndex_le q
  have := squareIndex_le q'
  exact squareIndex_inj (by omega)

/-- The set bits of a value are counted by its set squares. -/
theorem setBits_eq_card_squares (v : Value) :
    setBits v = (Finset.univ.filter fun q : Square => idx v (squareIndex q) = true).card := by
  refine (Finset.card_bijective squareBit squareBit_bijective fun q => ?_).symm
  simp only [squareBit, Finset.mem_filter, Finset.mem_univ, true_and,
    idx_eq_getLsbD v (squareIndex_le q)]

theorem setBits_gridTransform {p : Square → Square} (hp : Function.Bijective p) (v : Value) :
    setBits (gridTransform v p) = setBits v := by
  rw [setBits_eq_card_squares, setBits_eq_card_squares]
  refine (Finset.card_bijective p hp fun q => ?_).symm
  simp [idx_gridTransform hp]

/-! ## The square maps of the transforms (R58 to R62) -/

theorem flipVerticalMap_involutive : Function.Involutive flipVerticalMap := by
  unfold Function.Involutive; decide

theorem flipDiagonalMap_involutive : Function.Involutive flipDiagonalMap := by
  unfold Function.Involutive; decide

theorem mirrorMap_involutive : Function.Involutive mirrorMap := by
  unfold Function.Involutive; decide

theorem rotate180Map_involutive : Function.Involutive rotate180Map := by
  unfold Function.Involutive; decide

theorem mirrorMap_comp_flipVerticalMap : mirrorMap ∘ flipVerticalMap = rotate180Map := by decide

theorem flipVerticalMap_comp_mirrorMap : flipVerticalMap ∘ mirrorMap = rotate180Map := by decide

theorem flipVerticalMap_comp_flipDiagonalMap :
    flipVerticalMap ∘ flipDiagonalMap = rotate90Map := by decide

theorem rotate90Map_comp_self : rotate90Map ∘ rotate90Map = rotate180Map := by decide

theorem rotate90Map_bijective : Function.Bijective rotate90Map :=
  flipVerticalMap_comp_flipDiagonalMap ▸
    flipVerticalMap_involutive.bijective.comp flipDiagonalMap_involutive.bijective

/-! ## The transforms after one another (R61, R67) -/

theorem flipVertical_flipVertical (v : Value) : flipVertical (flipVertical v) = v :=
  gridTransform_involutive flipVerticalMap_involutive v

theorem flipDiagonal_flipDiagonal (v : Value) : flipDiagonal (flipDiagonal v) = v :=
  gridTransform_involutive flipDiagonalMap_involutive v

theorem mirror_mirror (v : Value) : mirror (mirror v) = v :=
  gridTransform_involutive mirrorMap_involutive v

theorem rotate180_rotate180 (v : Value) : rotate180 (rotate180 v) = v :=
  gridTransform_involutive rotate180Map_involutive v

theorem rotate180_eq_mirror_flipVertical (v : Value) : rotate180 v = mirror (flipVertical v) := by
  rw [mirror, flipVertical, gridTransform_gridTransform flipVerticalMap_involutive.bijective
    mirrorMap_involutive.bijective, mirrorMap_comp_flipVerticalMap, rotate180]

theorem rotate180_eq_flipVertical_mirror (v : Value) : rotate180 v = flipVertical (mirror v) := by
  rw [mirror, flipVertical, gridTransform_gridTransform mirrorMap_involutive.bijective
    flipVerticalMap_involutive.bijective, flipVerticalMap_comp_mirrorMap, rotate180]

/-- The rotation, defined in two steps, is a grid transform itself (R61). -/
theorem rotate90_eq_gridTransform (v : Value) : rotate90 v = gridTransform v rotate90Map := by
  rw [rotate90, flipVertical, flipDiagonal, gridTransform_gridTransform
    flipDiagonalMap_involutive.bijective flipVerticalMap_involutive.bijective,
    flipVerticalMap_comp_flipDiagonalMap]

theorem rotate90_rotate90 (v : Value) : rotate90 (rotate90 v) = rotate180 v := by
  rw [rotate90_eq_gridTransform, rotate90_eq_gridTransform, gridTransform_gridTransform
    rotate90Map_bijective rotate90Map_bijective, rotate90Map_comp_self, rotate180]

/-- The counter-clockwise rotation (R67). -/
theorem flipDiagonal_flipVertical (v : Value) :
    flipDiagonal (flipVertical v) = gridTransform v fun q => (7 - q.2, q.1) := by
  have hmaps : flipDiagonalMap ∘ flipVerticalMap = fun q => (7 - q.2, q.1) := by decide
  rw [flipDiagonal, flipVertical, gridTransform_gridTransform flipVerticalMap_involutive.bijective
    flipDiagonalMap_involutive.bijective, hmaps]

/-- What is proved of every grid transform by a bijection holds of the five transforms. -/
theorem exists_bijective_eq_gridTransform :
    ∀ f ∈ [flipVertical, flipDiagonal, mirror, rotate180, rotate90],
      ∃ p, Function.Bijective p ∧ ∀ v, f v = gridTransform v p := by
  simp only [List.forall_mem_cons]
  refine ⟨?_, ?_, ?_, ?_, ?_, by simp⟩
  · exact ⟨_, flipVerticalMap_involutive.bijective, fun _ => rfl⟩
  · exact ⟨_, flipDiagonalMap_involutive.bijective, fun _ => rfl⟩
  · exact ⟨_, mirrorMap_involutive.bijective, fun _ => rfl⟩
  · exact ⟨_, rotate180Map_involutive.bijective, fun _ => rfl⟩
  · exact ⟨_, rotate90Map_bijective, rotate90_eq_gridTransform⟩

/-! ## The statements -/

/-- Settles O45: each part is the transform's lemma for any bijection. -/
theorem gridTransformPermutesSquares : Obligations.GridTransformPermutesSquares := fun _ hp =>
  ⟨idx_gridTransform hp, setBits_gridTransform hp, gridTransform_zero hp, gridTransform_allOnes hp⟩

/-- Settles O49: the compositions from those of the square maps, the bitwise laws from those of every
grid transform. -/
theorem transformLaws : Obligations.TransformLaws := by
  refine ⟨fun v => ⟨flipVertical_flipVertical v, flipDiagonal_flipDiagonal v, mirror_mirror v,
    rotate180_rotate180 v, rotate180_eq_mirror_flipVertical v, rotate180_eq_flipVertical_mirror v, rfl,
    rotate90_rotate90 v, ?_, flipDiagonal_flipVertical v, ?_, ?_⟩, fun f hf a b => ?_⟩
  · rw [rotate90_rotate90, rotate90_rotate90, rotate180_rotate180]
  · rw [rotate90, flipDiagonal_flipDiagonal, flipVertical_flipVertical]
  · rw [rotate90, flipVertical_flipVertical, flipDiagonal_flipDiagonal]
  · obtain ⟨p, hp, hf⟩ := exists_bijective_eq_gridTransform f hf
    simp only [hf]
    exact ⟨gridTransform_not hp a, gridTransform_and hp a b, gridTransform_or hp a b,
      gridTransform_xor hp a b⟩

end Sys2Proof.Machine

/-! Obligations O33, O34, O35 and O36 (`45_transform.md` R58 to R61): the transform commands. The board
written is a grid transform of the source, so `idx_gridTransform` gives each square's content, and a
half-word form is one by `gridTransform_eq_iff`. -/

namespace Sys2Proof.Machine

/-! ## Images of a square as indices (R58 to R61) -/

/-- A row or a column counted from the other side. -/
theorem val_seven_sub (r : Fin 8) : (7 - r).val = 7 - r.val := Fin.sub_val_of_le (Fin.le_last r)

theorem squareIndex_mk (r c : Fin 8) : squareIndex (r, c) = 8 * r.val + c.val := rfl

theorem squareIndex_flipVerticalMap (r c : Fin 8) :
    squareIndex (flipVerticalMap (r, c)) = 8 * (7 - r.val) + c.val := by
  simp only [squareIndex, flipVerticalMap, val_seven_sub]

theorem squareIndex_flipDiagonalMap (r c : Fin 8) :
    squareIndex (flipDiagonalMap (r, c)) = 63 - 8 * c.val - r.val := by
  simp only [squareIndex, flipDiagonalMap, val_seven_sub]
  omega

theorem squareIndex_rotate180Map (q : Square) :
    squareIndex (rotate180Map q) = 63 - squareIndex q := by
  simp only [squareIndex, rotate180Map, val_seven_sub]
  omega

theorem squareIndex_rotate90Map (r c : Fin 8) :
    squareIndex (rotate90Map (r, c)) = 8 * c.val + (7 - r.val) := by
  simp only [squareIndex, rotate90Map, val_seven_sub]

theorem idx_rotate180 (v : Value) {n : Nat} (hn : n ≤ 63) :
    idx (rotate180 v) (63 - n) = idx v n := by
  obtain ⟨q, rfl⟩ := exists_squareIndex_eq hn
  rw [← squareIndex_rotate180Map]
  exact idx_gridTransform rotate180Map_involutive.bijective v q

/-! ## Half-word forms (R58, R60) -/

/-- Byte `i` of a word goes to byte `3 - i`, its bits in their order. -/
theorem getLsbD_bswap32 (x : Word) {i j : Nat} (hi : i < 4) (hj : j < 8) :
    (bswap32 x).getLsbD (8 * (3 - i) + j) = x.getLsbD (8 * i + j) := by
  simp only [bswap32, BitVec.getLsbD_append, BitVec.getLsbD_extractLsb']
  interval_cases i <;> grind

theorem getLsbD_bitrev32 (x : Word) {k : Nat} (hk : k < 32) :
    (bitrev32 x).getLsbD k = x.getLsbD (31 - k) := by
  rw [bitrev32, BitVec.getLsbD_reverse, BitVec.getMsbD_eq_getLsbD]
  simp [hk]

/-- Rows 0 to 3 lie in `high` as bytes 3 to 0, rows 4 to 7 in `low`. -/
theorem flipVertical_valueOf (b : Board) :
    flipVertical (valueOf b) = valueOf ⟨bswap32 b.low, bswap32 b.high⟩ := by
  refine (gridTransform_eq_iff flipVerticalMap_involutive.bijective).mpr fun ⟨r, c⟩ => ?_
  rw [squareIndex_flipVerticalMap, squareIndex_mk]
  by_cases h : r.val < 4
  · rw [idx_valueOf_of_ge _ (by omega), idx_valueOf_of_lt b (by omega)]
    have htarget : 63 - (8 * (7 - r.val) + c.val) = 8 * (3 - (3 - r.val)) + (7 - c.val) := by omega
    have hsource : 31 - (8 * r.val + c.val) = 8 * (3 - r.val) + (7 - c.val) := by omega
    rw [htarget, hsource, getLsbD_bswap32 _ (by omega) (by omega)]
  · rw [idx_valueOf_of_lt _ (by omega), idx_valueOf_of_ge b (by omega)]
    have htarget : 31 - (8 * (7 - r.val) + c.val) = 8 * (3 - (7 - r.val)) + (7 - c.val) := by omega
    have hsource : 63 - (8 * r.val + c.val) = 8 * (7 - r.val) + (7 - c.val) := by omega
    rw [htarget, hsource, getLsbD_bswap32 _ (by omega) (by omega)]

theorem rotate180_valueOf (b : Board) :
    rotate180 (valueOf b) = valueOf ⟨bitrev32 b.low, bitrev32 b.high⟩ := by
  refine (gridTransform_eq_iff rotate180Map_involutive.bijective).mpr fun q => ?_
  have hq := squareIndex_le q
  rw [squareIndex_rotate180Map]
  by_cases h : squareIndex q < 32
  · have hbit : 31 - (63 - (63 - squareIndex q)) = 31 - squareIndex q := by omega
    rw [idx_valueOf_of_ge _ (by omega), idx_valueOf_of_lt b h, getLsbD_bitrev32 _ (by omega), hbit]
  · have hbit : 31 - (31 - (63 - squareIndex q)) = 63 - squareIndex q := by omega
    rw [idx_valueOf_of_lt _ (by omega), idx_valueOf_of_ge b (by omega),
      getLsbD_bitrev32 _ (by omega), hbit]

/-! ## The destination of a command -/

@[simp] theorem readBoard_commit_self (s : State) (rd : BReg) (b : Board) :
    readBoard (commit s rd b) rd = b := (commit_writesBoard s rd b).1

/-! ## The statements -/

/-- Settles O33: the board written is the vertical flip, and the row of `BFLV`. -/
theorem bflvExchangesRows : Obligations.BflvExchangesRows := by
  refine ⟨fun rd rs1 s => ⟨_, _, rfl, commit_writesBoard .., fun r c => ?_, ?_⟩, runsAs_instrOf .bflv⟩
  · rw [valueOf_boardOf, ← squareIndex_flipVerticalMap]
    exact idx_gridTransform flipVerticalMap_involutive.bijective _ (r, c)
  · rw [flipVertical_valueOf, boardOf_valueOf]

/-- Settles O34: the board written is the diagonal flip, and the row of `BFLD`. -/
theorem bfldReflectsInTheOtherDiagonal : Obligations.BfldReflectsInTheOtherDiagonal := by
  refine ⟨fun rd rs1 s => ⟨_, _, rfl, commit_writesBoard .., fun r c => ?_⟩, runsAs_instrOf .bfld⟩
  rw [valueOf_boardOf, ← squareIndex_flipDiagonalMap]
  exact idx_gridTransform flipDiagonalMap_involutive.bijective _ (r, c)

/-- Settles O35: the board written is the 180 degree rotation, and the row of `BR180`. -/
theorem br180MovesIndexToSixtyThreeMinusIndex :
    Obligations.Br180MovesIndexToSixtyThreeMinusIndex := by
  refine ⟨fun rd rs1 s => ⟨_, _, rfl, commit_writesBoard .., ?_⟩, runsAs_instrOf .br180⟩
  rw [valueOf_boardOf]
  refine ⟨fun n hn => idx_rotate180 _ hn, rotate180_eq_flipVertical_mirror _,
    rotate180_eq_mirror_flipVertical _, ?_⟩
  rw [rotate180_valueOf, boardOf_valueOf]

/-- Settles O36: the board written is the clockwise rotation, which the two flips leave in `rd` one
after the other, and the row of `BR90`. -/
theorem br90IsDiagonalThenVerticalFlip : Obligations.Br90IsDiagonalThenVerticalFlip := by
  refine ⟨fun rd rs1 s => ⟨_, _, rfl, commit_writesBoard .., fun r c => ?_, _, _, rfl, rfl, ?_⟩,
    runsAs_instrOf .br90⟩
  · rw [valueOf_boardOf, rotate90_eq_gridTransform, ← squareIndex_rotate90Map]
    exact idx_gridTransform rotate90Map_bijective _ (r, c)
  · rw [readBoard_commit_self, readBoard_commit_self, valueOf_boardOf, rotate90]

end Sys2Proof.Machine

/-! Obligations O46, O47 and O48 (`45_transform.md` R63 to R65): the mask networks. Each round is itself
a grid transform: a swap round of R63 or R64 flips one binary digit of the row or of the column, and an
exchange round of R65 flips one digit of both where they agree. A network is then the composition of
its rounds' square maps. -/

namespace Sys2Proof.Machine

/-! ## The square maps of the rounds -/

/-- The binary digits `a` of the row and `b` of the column flipped. -/
def flipDigitsMap (a b : Fin 8) (q : Square) : Square := (q.1 ^^^ a, q.2 ^^^ b)

/-- The digit `d` of row and column flipped where the two agree in it. -/
def diagonalDigitMap (d : Fin 8) (q : Square) : Square :=
  if (q.1 ^^^ q.2) &&& d = 0 then flipDigitsMap d d q else q

theorem flipDigitsMap_bijective (a b : Fin 8) : Function.Bijective (flipDigitsMap a b) := by
  have hxor : ∀ x y : Fin 8, x ^^^ y ^^^ y = x := by decide
  exact Function.Involutive.bijective fun q => Prod.ext (hxor q.1 a) (hxor q.2 b)

theorem diagonalDigitMap_involutive (d : Fin 8) : Function.Involutive (diagonalDigitMap d) := by
  unfold Function.Involutive
  revert d
  decide

theorem diagonalDigitMap_bijective (d : Fin 8) : Function.Bijective (diagonalDigitMap d) :=
  (diagonalDigitMap_involutive d).bijective

/-! ## Swap rounds (R63, R64) -/

/-- `p` exchanges squares that lie `s` indices apart, and the mask has the later one of each pair. -/
def SwapsPairs (m : Value) (s : Nat) (p : Square → Square) : Prop :=
  ∀ q, (idx m (squareIndex q) = true ∧ idx m (squareIndex (p q)) = false ∧
      squareIndex q = squareIndex (p q) + s) ∨
    (idx m (squareIndex q) = false ∧ idx m (squareIndex (p q)) = true ∧
      squareIndex (p q) = squareIndex q + s)

theorem idx_swapRound (v m : Value) (s : Nat) {i : Nat} (hi : i ≤ 63) :
    idx (swapRound v m s) i =
      (decide (s ≤ i) && idx v (i - s) && idx m i ||
        decide (i + s ≤ 63) && (idx v (i + s) && idx m (i + s))) := by
  rw [swapRound, idx_or, idx_and, idx_shr64 v s hi, idx_shl64 _ s hi, idx_and]

/-- A square under the mask takes the content `s` indices before it and gives its own there; no pair
reaches into another. -/
theorem swapRound_eq_gridTransform {m : Value} {s : Nat} {p : Square → Square}
    (hp : Function.Bijective p) (h : SwapsPairs m s p) (v : Value) :
    swapRound v m s = gridTransform v p := by
  refine ((gridTransform_eq_iff hp).mpr fun q => ?_).symm
  rw [idx_swapRound v m s (squareIndex_le _)]
  obtain ⟨hq, hpq, hindex⟩ | ⟨hq, hpq, hindex⟩ := h q
  · simp [hpq, ← hindex, hq, squareIndex_le]
  · have hbeyond : squareIndex (p q) + s ≤ 63 → idx m (squareIndex (p q) + s) = false := by
      intro hle
      obtain ⟨q', hq'⟩ := exists_squareIndex_eq hle
      obtain ⟨-, hpq', hindex'⟩ | ⟨hclear, -, -⟩ := h q'
      · rw [Nat.add_right_cancel (hindex'.symm.trans hq'), hpq] at hpq'
        exact absurd hpq' (by decide)
      · rwa [hq'] at hclear
    have hsource : squareIndex (p q) - s = squareIndex q := by omega
    have hge : s ≤ squareIndex (p q) := by omega
    by_cases hle : squareIndex (p q) + s ≤ 63
    · simp [hpq, hsource, hge, hbeyond hle]
    · simp [hpq, hsource, hge, hle]

theorem swapRound_maskV1 (v : Value) :
    swapRound v maskV1 8 = gridTransform v (flipDigitsMap 1 0) :=
  swapRound_eq_gridTransform (flipDigitsMap_bijective 1 0) (by unfold SwapsPairs; decide) v

theorem swapRound_maskV2 (v : Value) :
    swapRound v maskV2 16 = gridTransform v (flipDigitsMap 2 0) :=
  swapRound_eq_gridTransform (flipDigitsMap_bijective 2 0) (by unfold SwapsPairs; decide) v

theorem swapRound_maskH1 (v : Value) :
    swapRound v maskH1 1 = gridTransform v (flipDigitsMap 0 1) :=
  swapRound_eq_gridTransform (flipDigitsMap_bijective 0 1) (by unfold SwapsPairs; decide) v

theorem swapRound_maskH2 (v : Value) :
    swapRound v maskH2 2 = gridTransform v (flipDigitsMap 0 2) :=
  swapRound_eq_gridTransform (flipDigitsMap_bijective 0 2) (by unfold SwapsPairs; decide) v

theorem swapRound_maskH4 (v : Value) :
    swapRound v maskH4 4 = gridTransform v (flipDigitsMap 0 4) :=
  swapRound_eq_gridTransform (flipDigitsMap_bijective 0 4) (by unfold SwapsPairs; decide) v

/-- The last round of R63 needs no mask: of the two shifts only one has a bit to give to an index. -/
theorem swapBuckets_eq_gridTransform (v : Value) :
    swapBuckets v = gridTransform v (flipDigitsMap 4 0) := by
  refine ((gridTransform_eq_iff (flipDigitsMap_bijective 4 0)).mpr fun q => ?_).symm
  have hpair : squareIndex q = squareIndex (flipDigitsMap 4 0 q) + 32 ∨
      squareIndex (flipDigitsMap 4 0 q) = squareIndex q + 32 := by revert q; decide
  have hq := squareIndex_le q
  have hpq := squareIndex_le (flipDigitsMap 4 0 q)
  rw [swapBuckets, idx_or, idx_shr64 v 32 hpq, idx_shl64 v 32 hpq]
  obtain hindex | hindex := hpair
  · have hlt : ¬32 ≤ squareIndex (flipDigitsMap 4 0 q) := by omega
    simp [hlt, ← hindex, hq]
  · have hgt : ¬squareIndex q + 32 + 32 ≤ 63 := by omega
    simp [hindex, hgt]

/-! ## Exchange rounds (R65) -/

/-- `p` exchanges squares that lie `s` indices apart, of which the mask has the earlier one, and leaves
the other squares where they are. -/
def ExchangesPairs (m : Value) (s : Nat) (p : Square → Square) : Prop :=
  ∀ q, (idx m (squareIndex q) = true ∧ idx m (squareIndex (p q)) = false ∧
      squareIndex (p q) = squareIndex q + s) ∨
    (idx m (squareIndex q) = false ∧ idx m (squareIndex (p q)) = true ∧
      squareIndex q = squareIndex (p q) + s) ∨
    (idx m (squareIndex q) = false ∧ p q = q)

/-- The difference of a pair is added at the index under the mask and at the one `s` after it. -/
theorem idx_exchange (v m : Value) (s : Nat) {i : Nat} (hi : i ≤ 63) :
    idx (exchange v m s) i =
      (idx v i ^^ (idx m i && (idx v i ^^ (decide (i + s ≤ 63) && idx v (i + s)))) ^^
        (decide (s ≤ i) && (idx m (i - s) && (idx v (i - s) ^^ idx v i)))) := by
  have hbefore : i - s ≤ 63 := by omega
  simp only [exchange, idx_xor, idx_and, idx_shl64 v s hi, idx_shr64 _ s hi, idx_shl64 v s hbefore]
  by_cases h : s ≤ i
  · simp [h, hi]
  · simp [h]

theorem exchange_eq_gridTransform {m : Value} {s : Nat} {p : Square → Square}
    (hp : Function.Bijective p) (h : ExchangesPairs m s p) (v : Value) :
    exchange v m s = gridTransform v p := by
  refine ((gridTransform_eq_iff hp).mpr fun q => ?_).symm
  rw [idx_exchange v m s (squareIndex_le _)]
  have hq63 := squareIndex_le q
  have hbefore : idx m (squareIndex q) = false → s ≤ squareIndex (p q) →
      idx m (squareIndex (p q) - s) = false := by
    intro hclear hge
    have hpq63 := squareIndex_le (p q)
    obtain ⟨q', hq'⟩ := exists_squareIndex_eq (n := squareIndex (p q) - s) (by omega)
    rw [← hq']
    obtain ⟨-, -, hindex⟩ | ⟨hclear', -, -⟩ | ⟨hclear', -⟩ := h q'
    · have hsame : q' = q := hp.injective (squareIndex_inj (by omega))
      rwa [hsame]
    · exact hclear'
    · exact hclear'
  obtain ⟨hq, hpq, hindex⟩ | ⟨hq, hpq, hindex⟩ | ⟨hq, hfixed⟩ := h q
  · have hsource : squareIndex (p q) - s = squareIndex q := by omega
    have hge : s ≤ squareIndex (p q) := by omega
    simp [hpq, hsource, hge, hq, Bool.xor_left_comm]
  · by_cases hge : s ≤ squareIndex (p q)
    · simp [hpq, ← hindex, hq63, hbefore hq hge]
    · simp [hpq, ← hindex, hq63, hge]
  · rw [hfixed] at hbefore ⊢
    by_cases hge : s ≤ squareIndex q
    · simp [hq, hbefore hq hge]
    · simp [hq, hge]

theorem exchange_maskDG4 (v : Value) :
    exchange v maskDG4 36 = gridTransform v (diagonalDigitMap 4) :=
  exchange_eq_gridTransform (diagonalDigitMap_bijective 4) (by unfold ExchangesPairs; decide) v

theorem exchange_maskDG2 (v : Value) :
    exchange v maskDG2 18 = gridTransform v (diagonalDigitMap 2) :=
  exchange_eq_gridTransform (diagonalDigitMap_bijective 2) (by unfold ExchangesPairs; decide) v

theorem exchange_maskDG1 (v : Value) :
    exchange v maskDG1 9 = gridTransform v (diagonalDigitMap 1) :=
  exchange_eq_gridTransform (diagonalDigitMap_bijective 1) (by unfold ExchangesPairs; decide) v

/-! ## Networks (R63, R64) -/

/-- Three rounds after one another. -/
theorem gridTransform_three {p p' p'' : Square → Square} (hp : Function.Bijective p)
    (hp' : Function.Bijective p') (hp'' : Function.Bijective p'') (v : Value) :
    gridTransform (gridTransform (gridTransform v p) p') p'' = gridTransform v (p'' ∘ p' ∘ p) := by
  rw [gridTransform_gridTransform hp hp', gridTransform_gridTransform (hp'.comp hp) hp'']

theorem flipVerticalNet_eq_flipVertical (v : Value) : flipVerticalNet v = flipVertical v := by
  have hmaps : flipDigitsMap 4 0 ∘ flipDigitsMap 2 0 ∘ flipDigitsMap 1 0 = flipVerticalMap := by
    decide
  have hbijective := flipDigitsMap_bijective
  rw [flipVerticalNet, swapRound_maskV1, swapRound_maskV2, swapBuckets_eq_gridTransform,
    gridTransform_three (hbijective 1 0) (hbijective 2 0) (hbijective 4 0), hmaps, flipVertical]

theorem mirrorNet_eq_mirror (v : Value) : mirrorNet v = mirror v := by
  have hmaps : flipDigitsMap 0 4 ∘ flipDigitsMap 0 2 ∘ flipDigitsMap 0 1 = mirrorMap := by decide
  have hbijective := flipDigitsMap_bijective
  rw [mirrorNet, swapRound_maskH1, swapRound_maskH2, swapRound_maskH4,
    gridTransform_three (hbijective 0 1) (hbijective 0 2) (hbijective 0 4), hmaps, mirror]

/-! ## The diagonal network in any order (R65) -/

/-- The rounds of R65, as mask and distance, in the order they stand there. -/
def diagonalRounds : List (Value × Nat) := [(maskDG4, 36), (maskDG2, 18), (maskDG1, 9)]

theorem exists_exchange_eq_gridTransform :
    ∀ r ∈ diagonalRounds, ∃ d ∈ ([4, 2, 1] : List (Fin 8)),
      ∀ v, exchange v r.1 r.2 = gridTransform v (diagonalDigitMap d) := by
  simp only [diagonalRounds, List.forall_mem_cons]
  exact ⟨⟨4, by decide, exchange_maskDG4⟩, ⟨2, by decide, exchange_maskDG2⟩,
    ⟨1, by decide, exchange_maskDG1⟩, by simp⟩

/-- A round is its own inverse, as its square map is. -/
theorem exchange_exchange {r : Value × Nat} (hr : r ∈ diagonalRounds) (v : Value) :
    exchange (exchange v r.1 r.2) r.1 r.2 = v := by
  obtain ⟨d, -, hd⟩ := exists_exchange_eq_gridTransform r hr
  rw [hd, hd, gridTransform_involutive (diagonalDigitMap_involutive d)]

/-- Rounds commute: each looks at a binary digit of its own. -/
theorem exchange_comm {r r' : Value × Nat} (hr : r ∈ diagonalRounds) (hr' : r' ∈ diagonalRounds)
    (v : Value) :
    exchange (exchange v r.1 r.2) r'.1 r'.2 = exchange (exchange v r'.1 r'.2) r.1 r.2 := by
  have hmaps : ∀ d ∈ ([4, 2, 1] : List (Fin 8)), ∀ d' ∈ ([4, 2, 1] : List (Fin 8)),
      diagonalDigitMap d' ∘ diagonalDigitMap d = diagonalDigitMap d ∘ diagonalDigitMap d' := by
    decide
  obtain ⟨d, hmem, hd⟩ := exists_exchange_eq_gridTransform r hr
  obtain ⟨d', hmem', hd'⟩ := exists_exchange_eq_gridTransform r' hr'
  have hbijective := diagonalDigitMap_bijective
  rw [hd, hd', hd', hd, gridTransform_gridTransform (hbijective d) (hbijective d'),
    gridTransform_gridTransform (hbijective d') (hbijective d), hmaps d hmem d' hmem']

theorem flipDiagonalNet_eq_flipDiagonal (v : Value) : flipDiagonalNet v = flipDiagonal v := by
  have hmaps : diagonalDigitMap 1 ∘ diagonalDigitMap 2 ∘ diagonalDigitMap 4 = flipDiagonalMap := by
    decide
  have hbijective := diagonalDigitMap_bijective
  rw [flipDiagonalNet, exchange_maskDG4, exchange_maskDG2, exchange_maskDG1,
    gridTransform_three (hbijective 4) (hbijective 2) (hbijective 1), hmaps, flipDiagonal]

/-- A fold over the rounds in another order is the network. -/
theorem foldl_exchange_of_perm {o : List (Value × Nat)} (ho : diagonalRounds.Perm o) (v : Value) :
    o.foldl (fun x r => exchange x r.1 r.2) v = flipDiagonal v := by
  rw [← flipDiagonalNet_eq_flipDiagonal]
  exact (ho.foldl_eq' (fun _ hr _ hr' x => exchange_comm hr hr' x) v).symm

/-! ## The statements -/

/-- Settles O46: the three rounds flip the three digits of the row. -/
theorem flipVerticalNetworkIsThePermutation : Obligations.FlipVerticalNetworkIsThePermutation :=
  flipVerticalNet_eq_flipVertical

/-- Settles O47: each group is its transform, and the two transforms make the rotation in either
order. -/
theorem rotate180NetworkIsThePermutation : Obligations.Rotate180NetworkIsThePermutation := by
  refine fun v => ⟨mirrorNet_eq_mirror v, ?_, ?_⟩
  · rw [rotate180Net, mirrorNet_eq_mirror, flipVerticalNet_eq_flipVertical,
      rotate180_eq_flipVertical_mirror]
  · rw [flipVerticalNet_eq_flipVertical, mirrorNet_eq_mirror, rotate180_eq_mirror_flipVertical]

/-- Settles O48: the six lists are the rounds in some order. -/
theorem flipDiagonalNetworkIsThePermutation : Obligations.FlipDiagonalNetworkIsThePermutation := by
  refine fun v => ⟨flipDiagonalNet_eq_flipDiagonal v, fun o ho => foldl_exchange_of_perm ?_ v,
    fun r hr => exchange_exchange hr v⟩
  revert o
  decide

end Sys2Proof.Machine

/-! Obligations O50, O53 and O54 (`46_host_adapter.md` R69, R75, R76, R78): the adapter's checks of
lists, indices, shifts and values. Of each check one lemma says when it passes and another that it has
one error to raise where it does not. What an operation then issues is said once for each shape of
operation, so that a statement about an operation is one about its checks. -/

namespace Sys2Proof.Machine

/-! ## The checks -/

theorem asWord_eq_some_iff {x : HostScalar} {w : Word} :
    asWord x = some w ↔
      ∃ n, asInteger x = some n ∧ 0 ≤ n ∧ n < 2 ^ 32 ∧ w = BitVec.ofInt 32 n := by
  unfold asWord
  cases asInteger x with
  | none => simp
  | some n => simp [and_assoc, eq_comm]

/-- Two buckets are read from exactly two integers in `[0, 2^32)`, the first as `high`. -/
theorem twoWords_eq_some_iff {xs : List HostScalar} {b : Board} :
    twoWords xs = some b ↔
      ∃ x y h l, xs = [x, y] ∧ asInteger x = some h ∧ asInteger y = some l ∧
        0 ≤ h ∧ h < 2 ^ 32 ∧ 0 ≤ l ∧ l < 2 ^ 32 ∧ b = ⟨BitVec.ofInt 32 h, BitVec.ofInt 32 l⟩ := by
  constructor
  · intro hb
    unfold twoWords at hb
    split at hb
    · next x y =>
      split at hb
      · next hx hy =>
        obtain ⟨h, hxh, hmin, hmax, rfl⟩ := asWord_eq_some_iff.mp hx
        obtain ⟨l, hyl, lmin, lmax, rfl⟩ := asWord_eq_some_iff.mp hy
        exact ⟨x, y, h, l, rfl, hxh, hyl, hmin, hmax, lmin, lmax, (Option.some.inj hb).symm⟩
      · cases hb
    · cases hb
  · rintro ⟨x, y, h, l, rfl, hxh, hyl, hmin, hmax, lmin, lmax, rfl⟩
    have hx := asWord_eq_some_iff.mpr ⟨h, hxh, hmin, hmax, rfl⟩
    have hy := asWord_eq_some_iff.mpr ⟨l, hyl, lmin, lmax, rfl⟩
    simp [twoWords, hx, hy]

theorem checkArray_eq_ok_iff {xs : List HostScalar} {b : Board} :
    checkArray xs = .ok b ↔ twoWords xs = some b := by
  unfold checkArray
  cases twoWords xs <;> simp

theorem checkArray_eq_error {xs : List HostScalar} (h : ∀ b, twoWords xs ≠ some b) :
    checkArray xs = .error malformedBoard := by
  rw [checkArray, Option.eq_none_iff_forall_ne_some.mpr h]

theorem checkIndex_eq_ok_iff {x : HostScalar} {k : Int} :
    checkIndex x = .ok k ↔ asInteger x = some k ∧ 0 ≤ k ∧ k < 64 := by
  unfold checkIndex
  cases asInteger x with
  | none => simp
  | some n => grind

theorem checkIndex_eq_error {x : HostScalar} (h : ¬∃ k, checkIndex x = .ok k) :
    checkIndex x = .error argumentOutOfRange := by
  unfold checkIndex at h ⊢
  cases hx : asInteger x with
  | none => rfl
  | some n => grind

theorem checkShift_eq_ok_iff {x : HostScalar} {k : Int} :
    checkShift x = .ok k ↔ ∃ n, asInteger x = some n ∧ 0 ≤ n ∧ k = min n 64 := by
  unfold checkShift
  cases asInteger x with
  | none => simp
  | some n => grind

theorem checkShift_eq_error {x : HostScalar} (h : ¬∃ k, checkShift x = .ok k) :
    checkShift x = .error argumentOutOfRange := by
  unfold checkShift at h ⊢
  cases hx : asInteger x with
  | none => rfl
  | some n => grind

theorem checkValue_some_eq_ok_iff {y : HostScalar} {v : Option Word} :
    checkValue (some y) = .ok v ↔ ∃ w, asWord y = some w ∧ v = some w := by
  cases hy : asWord y <;> simp [checkValue, hy, eq_comm]

theorem checkValue_eq_error {value : Option HostScalar} (h : ¬∃ v, checkValue value = .ok v) :
    checkValue value = .error argumentOutOfRange := by
  cases value with
  | none => exact absurd ⟨none, rfl⟩ h
  | some y =>
    cases hy : asWord y with
    | none => simp [checkValue, hy]
    | some w => exact absurd ⟨some w, checkValue_some_eq_ok_iff.mpr ⟨w, hy, rfl⟩⟩ h

/-! ## What an operation issues, for each shape of operation (R78) -/

theorem issueLoad_eq_ok_iff {d : BReg} {c : Except AdapterError Board} {is : List Instr} :
    issueLoad d c = .ok is ↔ ∃ b, c = .ok b ∧ is = [.bld d b.high b.low] := by
  cases c <;> simp [issueLoad, eq_comm]

theorem issueWithInt_eq_ok_iff {mk : Int → Instr} {c : Except AdapterError Int} {is : List Instr} :
    issueWithInt mk c = .ok is ↔ ∃ n, c = .ok n ∧ is = [mk n] := by
  cases c <;> simp [issueWithInt, eq_comm]

theorem issueOffset_eq_ok_iff {mk : Int → Option Word → Instr} {shift : HostScalar}
    {value : Option HostScalar} {is : List Instr} :
    issueOffset mk shift value = .ok is ↔
      ∃ k v, checkIndex shift = .ok k ∧ checkValue value = .ok v ∧ is = [mk k v] := by
  unfold issueOffset
  cases checkIndex shift <;> cases checkValue value <;> simp [eq_comm]

@[simp] theorem issueLoad_error (d : BReg) (e : AdapterError) :
    issueLoad d (.error e) = .error e := rfl

@[simp] theorem issueWithInt_error (mk : Int → Instr) (e : AdapterError) :
    issueWithInt mk (.error e) = .error e := rfl

/-- A bad argument of an offset operation is `OutOfRange`, whichever it is. -/
theorem issueOffset_eq_error {mk : Int → Option Word → Instr} {shift : HostScalar}
    {value : Option HostScalar}
    (h : (¬∃ k, checkIndex shift = .ok k) ∨ ¬∃ v, checkValue value = .ok v) :
    issueOffset mk shift value = .error argumentOutOfRange := by
  unfold issueOffset
  by_cases hindex : ∃ k, checkIndex shift = .ok k
  · obtain ⟨k, hk⟩ := hindex
    rw [hk, checkValue_eq_error (h.resolve_left (not_not_intro ⟨k, hk⟩))]
  · rw [checkIndex_eq_error hindex]

/-! ## Destinations (R78) -/

theorem destination_allowed (m : Mode) (s : BReg) : AllowedDestination m s [] (destination m s []) := by
  cases m with
  | modify => rfl
  | fresh p => exact ⟨pickRegister_ne s p, List.not_mem_nil⟩

theorem destination_allowed_operand (m : Mode) (s t : BReg) :
    AllowedDestination m s [t] (destination m s [t]) := by
  cases m with
  | modify => rfl
  | fresh p =>
    obtain ⟨hs, ht⟩ := pickRegister_ne_both s t p
    exact ⟨hs, by simpa using ht⟩

/-! ## The clamp of a shift (R75) -/

/-- A left shift and a right shift by 64 give the zero board, as every larger one does. -/
theorem shiftLanes_clamp (b : Board) (n : Int) :
    shlLanes b (min n 64).toNat = shlLanes b n.toNat ∧
      shrLanes b (min n 64).toNat = shrLanes b n.toNat := by
  obtain hle | hlt := le_or_gt n 64
  · rw [min_eq_left hle]
    exact ⟨rfl, rfl⟩
  · have hclamp : 64 ≤ (min n 64).toNat := by omega
    have hlarge : 64 ≤ n.toNat := by omega
    exact ⟨(shlLanes_of_ge b hclamp).trans (shlLanes_of_ge b hlarge).symm,
      (shrLanes_of_ge b hclamp).trans (shrLanes_of_ge b hlarge).symm⟩

/-! ## The statements -/

/-- Settles O50: the two buckets that the list's check reads, or its one error. -/
theorem arrayConstructorLoadsTwoWords : Obligations.ArrayConstructorLoadsTwoWords := by
  refine fun d xs => ⟨fun x y h l hxs hx hy hmin hmax lmin lmax => ?_, fun hnot => ?_⟩
  · have hwords := twoWords_eq_some_iff.mpr ⟨x, y, h, l, hxs, hx, hy, hmin, hmax, lmin, lmax, rfl⟩
    exact issueLoad_eq_ok_iff.mpr ⟨_, checkArray_eq_ok_iff.mpr hwords, rfl⟩
  · have hwords : ∀ b, twoWords xs ≠ some b := fun b hb => by
      obtain ⟨x, y, h, l, hxs, hx, hy, hmin, hmax, lmin, lmax, -⟩ := twoWords_eq_some_iff.mp hb
      exact hnot ⟨x, y, h, l, hxs, hx, hy, hmin, hmax, lmin, lmax⟩
    rw [issue, checkArray_eq_error hwords, issueLoad_error, malformedBoard]

/-- Settles O53: what passes each check, its one error, and the clamp, which no board notices. -/
theorem adapterChecksIndexAndShift : Obligations.AdapterChecksIndexAndShift := by
  refine ⟨fun s x n hx hmin hmax => ?_, fun s x hnot => ?_, fun m s x n hx hmin => ⟨?_, fun b => ?_⟩,
    fun m s x hnot => ?_⟩
  · exact issueWithInt_eq_ok_iff.mpr ⟨n, checkIndex_eq_ok_iff.mpr ⟨hx, hmin, hmax⟩, rfl⟩
  · rw [issue, checkIndex_eq_error (by simpa only [checkIndex_eq_ok_iff] using hnot),
      issueWithInt_error, argumentOutOfRange]
  · have hcheck : checkShift x = .ok (min n 64) := checkShift_eq_ok_iff.mpr ⟨n, hx, hmin, rfl⟩
    exact ⟨_, destination_allowed m s, issueWithInt_eq_ok_iff.mpr ⟨_, hcheck, rfl⟩,
      issueWithInt_eq_ok_iff.mpr ⟨_, hcheck, rfl⟩⟩
  · exact shiftLanes_clamp b n
  · have herror : checkShift x = .error argumentOutOfRange := checkShift_eq_error fun ⟨k, hk⟩ => by
      obtain ⟨n, hx, hmin, -⟩ := checkShift_eq_ok_iff.mp hk
      exact hnot ⟨n, hx, hmin⟩
    simp [issue, herror, argumentOutOfRange]

/-- Settles O54: both checks of an offset operation passed, or `OutOfRange` from either. -/
theorem adapterChecksOffsetArguments : Obligations.AdapterChecksOffsetArguments := by
  refine ⟨fun m s x k hx hmin hmax => ?_, fun m s x value hbad => ?_⟩
  · have hk : checkIndex x = .ok k := checkIndex_eq_ok_iff.mpr ⟨hx, hmin, hmax⟩
    refine ⟨_, destination_allowed m s, issueOffset_eq_ok_iff.mpr ⟨k, none, hk, rfl, rfl⟩,
      issueOffset_eq_ok_iff.mpr ⟨k, none, hk, rfl, rfl⟩, fun y v hy vmin vmax => ?_⟩
    have hword := asWord_eq_some_iff.mpr ⟨v, hy, vmin, vmax, rfl⟩
    have hv := checkValue_some_eq_ok_iff.mpr ⟨_, hword, rfl⟩
    exact ⟨issueOffset_eq_ok_iff.mpr ⟨k, _, hk, hv, rfl⟩, issueOffset_eq_ok_iff.mpr ⟨k, _, hk, hv, rfl⟩⟩
  · have herror : (¬∃ k, checkIndex x = .ok k) ∨ ¬∃ v, checkValue value = .ok v := by
      refine hbad.imp (fun hindex => ?_) fun ⟨y, hvalue, hnot⟩ ⟨v, hv⟩ => ?_
      · simpa only [checkIndex_eq_ok_iff] using hindex
      · subst hvalue
        obtain ⟨w, hw, -⟩ := checkValue_some_eq_ok_iff.mp hv
        obtain ⟨n, hy, vmin, vmax, -⟩ := asWord_eq_some_iff.mp hw
        exact hnot ⟨n, hy, vmin, vmax⟩
    exact ⟨issueOffset_eq_error herror, issueOffset_eq_error herror⟩

end Sys2Proof.Machine

/-! Obligations O51 and O52 (`46_host_adapter.md` R70, R72, R73): strings of binary digits. Digit `k` of a
numeral, from its right end, is bit `k` of its number. A string of 64 digits therefore lists the indices
of its board in order, as a rendering does, and a shorter string has the number of its padding. -/

namespace Sys2Proof.Machine

/-! ## Binary numerals (R70) -/

@[simp] theorem bin_nil : bin [] = 0 := rfl

theorem bin_concat (t : List Char) (c : Char) : bin (t ++ [c]) = 2 * bin t + binaryDigit c := by
  simp [bin]

theorem binaryDigit_lt (c : Char) : binaryDigit c < 2 := by
  unfold binaryDigit
  split <;> decide

theorem bin_append (t u : List Char) : bin (t ++ u) = bin t * 2 ^ u.length + bin u := by
  induction u using List.reverseRecOn with
  | nil => simp
  | append_singleton u c ih =>
    rw [← List.append_assoc, bin_concat, bin_concat, ih, List.length_append, List.length_singleton,
      pow_succ]
    ring

theorem bin_lt (t : List Char) : bin t < 2 ^ t.length := by
  induction t using List.reverseRecOn with
  | nil => decide
  | append_singleton t c ih =>
    have hdigit := binaryDigit_lt c
    rw [bin_concat, List.length_append, List.length_singleton, pow_succ]
    omega

theorem bin_replicate_zero (k : Nat) : bin (List.replicate k '0') = 0 := by
  induction k with
  | zero => rfl
  | succ k ih =>
    rw [List.replicate_succ', bin_concat, ih]
    rfl

/-- Bit `k` of the number is the `k`-th digit from the right. -/
theorem testBit_bin (t : List Char) (k : Nat) :
    (bin t).testBit k = decide (t.reverse[k]? = some '1') := by
  induction t using List.reverseRecOn generalizing k with
  | nil => simp
  | append_singleton t c ih =>
    have hbit : bin (t ++ [c]) = Nat.bit (c = '1') (bin t) := by
      rw [bin_concat, Nat.bit_val, binaryDigit]
      by_cases hc : c = '1' <;> simp [hc]
    rw [hbit]
    cases k with
    | zero => simp
    | succ k => simpa [Nat.testBit_bit_succ] using ih k

/-! ## The board of a string (R70) -/

theorem isBoardString_iff {cs : List Char} :
    isBoardString cs = true ↔ (∀ c ∈ cs, c = '0' ∨ c = '1') ∧ 1 ≤ cs.length ∧ cs.length ≤ 64 := by
  simp [isBoardString, and_assoc]

theorem checkString_eq_ok_iff {cs : List Char} {b : Board} :
    checkString cs = .ok b ↔ isBoardString cs = true ∧ parseBoard cs = b := by
  unfold checkString
  split <;> simp [*]

/-- The cut at the last 32 characters is the rule for every length: of a shorter string it leaves
nothing for `high`. -/
theorem parseBoard_eq (cs : List Char) :
    parseBoard cs = ⟨BitVec.ofNat 32 (bin (cs.take (cs.length - 32))),
      BitVec.ofNat 32 (bin (cs.drop (cs.length - 32)))⟩ := by
  unfold parseBoard
  split
  · have hnone : cs.length - 32 = 0 := by omega
    simp [hnone]
  · rfl

theorem toNat_ofNat_bin {t : List Char} (h : t.length ≤ 32) : (BitVec.ofNat 32 (bin t)).toNat = bin t :=
  Nat.mod_eq_of_lt ((bin_lt t).trans_le (Nat.pow_le_pow_right (by decide) h))

theorem toNat_high_parseBoard {cs : List Char} (h : cs.length ≤ 64) :
    (parseBoard cs).high.toNat = bin (cs.take (cs.length - 32)) := by
  rw [parseBoard_eq, toNat_ofNat_bin (by rw [List.length_take]; omega)]

theorem toNat_low_parseBoard (cs : List Char) :
    (parseBoard cs).low.toNat = bin (cs.drop (cs.length - 32)) := by
  rw [parseBoard_eq, toNat_ofNat_bin (by rw [List.length_drop]; omega)]

theorem toNat_valueOf (b : Board) : (valueOf b).toNat = b.high.toNat * 2 ^ 32 + b.low.toNat := by
  rw [valueOf, cat, BitVec.toNat_append, ← Nat.shiftLeft_add_eq_or_of_lt b.low.isLt, Nat.shiftLeft_eq]

/-- The value of the board is the number of the whole string. -/
theorem toNat_valueOf_parseBoard {cs : List Char} (h : cs.length ≤ 64) :
    (valueOf (parseBoard cs)).toNat = bin cs := by
  by_cases hlong : 32 ≤ cs.length
  · have hlow : (cs.drop (cs.length - 32)).length = 32 := by rw [List.length_drop]; omega
    calc (valueOf (parseBoard cs)).toNat
      _ = bin (cs.take (cs.length - 32)) * 2 ^ 32 + bin (cs.drop (cs.length - 32)) := by
        rw [toNat_valueOf, toNat_high_parseBoard h, toNat_low_parseBoard]
      _ = bin (cs.take (cs.length - 32) ++ cs.drop (cs.length - 32)) := by rw [bin_append, hlow]
      _ = bin cs := by rw [List.take_append_drop]
  · have hnone : cs.length - 32 = 0 := by omega
    simp [toNat_valueOf, toNat_high_parseBoard h, toNat_low_parseBoard, hnone]

/-! ## Strings of 64 digits (R72) -/

/-- A string of 64 digits lists the indices of its board in order. -/
theorem idx_parseBoard {t : List Char} (h : t.length = 64) {n : Nat} (hn : n ≤ 63) :
    idx (valueOf (parseBoard t)) n = decide (t[n]? = some '1') := by
  have hrev : t.reverse[63 - n]? = t[n]? := by
    rw [List.getElem?_reverse (by omega)]
    congr 1
    omega
  rw [idx_eq_getLsbD _ hn, ← BitVec.testBit_toNat, toNat_valueOf_parseBoard h.le, testBit_bin, hrev]

@[simp] theorem length_render (h l : Word) : (render h l).length = 64 := by simp [render, renderWord]

/-- A rendering lists the indices of its board in order. -/
theorem getElem?_render (b : Board) {n : Nat} (hn : n ≤ 63) :
    (render b.high b.low)[n]? = some (if idx (valueOf b) n then '1' else '0') := by
  by_cases hhigh : n < 32
  · rw [idx_valueOf_of_lt b hhigh]
    simp [render, renderWord, List.getElem?_append, hhigh]
  · have hlow : n - 32 < 32 := by omega
    have hbit : 31 - (n - 32) = 63 - n := by omega
    rw [idx_valueOf_of_ge b (by omega)]
    simp [render, renderWord, List.getElem?_append, hhigh, hlow, hbit]

theorem isBoardString_render (h l : Word) : isBoardString (render h l) = true := by
  refine isBoardString_iff.mpr ⟨fun c hc => ?_, by simp, by simp⟩
  simp only [render, renderWord, List.mem_append, List.mem_map] at hc
  obtain ⟨i, -, rfl⟩ | ⟨i, -, rfl⟩ := hc <;> grind

theorem parseBoard_render (b : Board) : parseBoard (render b.high b.low) = b := by
  refine valueOf_inj.mp (eq_of_idx_eq fun n hn => ?_)
  rw [idx_parseBoard (length_render ..) hn, getElem?_render b hn]
  cases idx (valueOf b) n <;> rfl

theorem render_parseBoard {t : List Char} (hdigits : ∀ c ∈ t, c = '0' ∨ c = '1')
    (h : t.length = 64) : render (parseBoard t).high (parseBoard t).low = t := by
  refine List.ext_getElem? fun n => ?_
  by_cases hn : n ≤ 63
  · have hget : t[n]? = some t[n] := List.getElem?_eq_getElem (by omega)
    rw [getElem?_render _ hn, idx_parseBoard h hn, hget]
    obtain hc | hc := hdigits t[n] (List.getElem_mem _) <;> simp [hc]
  · rw [List.getElem?_eq_none (by rw [length_render]; omega), List.getElem?_eq_none (by omega)]

/-! ## Padding (R73) -/

/-- A string padded with `0` on the left to 64 characters. -/
def padded (cs : List Char) : List Char := List.replicate (64 - cs.length) '0' ++ cs

theorem length_padded {cs : List Char} (h : cs.length ≤ 64) : (padded cs).length = 64 := by
  rw [padded, List.length_append, List.length_replicate]
  omega

theorem bin_padded (cs : List Char) : bin (padded cs) = bin cs := by
  rw [padded, bin_append, bin_replicate_zero, Nat.zero_mul, Nat.zero_add]

theorem parseBoard_padded {cs : List Char} (h : cs.length ≤ 64) :
    parseBoard (padded cs) = parseBoard cs := by
  refine valueOf_inj.mp (BitVec.eq_of_toNat_eq ?_)
  rw [toNat_valueOf_parseBoard (length_padded h).le, bin_padded, toNat_valueOf_parseBoard h]

theorem render_parseBoard_eq_padded {cs : List Char} (h : isBoardString cs = true) :
    render (parseBoard cs).high (parseBoard cs).low = padded cs := by
  obtain ⟨hdigits, -, hlength⟩ := isBoardString_iff.mp h
  rw [← parseBoard_padded hlength]
  refine render_parseBoard (fun c hc => ?_) (length_padded hlength)
  obtain hpad | hcs := List.mem_append.mp hc
  · exact .inl (List.eq_of_mem_replicate hpad)
  · exact hdigits c hcs

/-! ## The statements -/

/-- Settles O51: the numbers of the two buckets and of the whole value, or the check's one error. -/
theorem stringConstructorReadsABinaryNumeral : Obligations.StringConstructorReadsABinaryNumeral := by
  refine fun d cs => ⟨fun hdigits hmin hmax => ⟨parseBoard cs, ?_, fun hshort => ⟨?_, ?_⟩,
    fun _ => ⟨toNat_high_parseBoard hmax, toNat_low_parseBoard cs⟩, toNat_valueOf_parseBoard hmax⟩,
    fun hnot => ?_⟩
  · have hstring := isBoardString_iff.mpr ⟨hdigits, hmin, hmax⟩
    exact issueLoad_eq_ok_iff.mpr ⟨_, checkString_eq_ok_iff.mpr ⟨hstring, rfl⟩, rfl⟩
  · rw [parseBoard, if_pos hshort]
  · rw [parseBoard, if_pos hshort, toNat_ofNat_bin hshort]
  · rw [← isBoardString_iff] at hnot
    rw [issue, checkString, if_neg hnot, issueLoad_error, malformedBoardString]

/-- Settles O52: a rendering and a string of 64 digits list the same indices, and `BRD` answers with the
two buckets that are rendered. -/
theorem renderingRoundTrip : Obligations.RenderingRoundTrip := by
  refine ⟨fun b => ⟨length_render .., fun n => getElem?_render b, ?_⟩, fun cs b hcheck => ?_,
    fun r s => ?_⟩
  · exact checkString_eq_ok_iff.mpr ⟨isBoardString_render .., parseBoard_render b⟩
  · obtain ⟨hstring, rfl⟩ := checkString_eq_ok_iff.mp hcheck
    exact render_parseBoard_eq_padded hstring
  · obtain ⟨-, -, hresp⟩ := respondWith_answersWords s (readBoard s r).high (readBoard s r).low
    exact ⟨_, _, rfl, rfl, hresp, rfl⟩

end Sys2Proof.Machine

/-! Obligations O58 and O59 (`46_host_adapter.md` R74; `41_logic.md` R41; `44_query.md` R56): copy and
comparison. Two boards are equal exactly when their "exclusive or" is empty. -/

namespace Sys2Proof.Machine

theorem isEmpty_lanewise_xor (a b : Board) : isEmpty (lanewise (· ^^^ ·) a b) = decide (a = b) := by
  refine Bool.eq_iff_iff.mpr ?_
  calc isEmpty (lanewise (· ^^^ ·) a b) = true
    _ ↔ valueOf a ^^^ valueOf b = 0 := by rw [isEmpty_iff, valueOf_lanewise_xor]
    _ ↔ valueOf a = valueOf b := BitVec.xor_eq_zero_iff
    _ ↔ decide (a = b) = true := by rw [valueOf_inj, decide_eq_true_iff]

/-- `BXOR` and then `BEMP` of its result: the second answers with the comparison of the old boards, and
no register but the destination changes. -/
theorem exec_bxor_bemp (d r q : BReg) (s : State) :
    ∃ t u r₁, exec (.bxor d r q) s = .next t ∧ exec (.bemp d) t = .next u ∧
      t.responses = s.responses ++ [r₁] ∧
      u.responses =
        t.responses ++ [okResponse 0 (bitWord (decide (readBoard s r = readBoard s q)))] ∧
      ∀ p, p ≠ d → readBoard u p = readBoard s p := by
  obtain ⟨hwritten, hother, -, hresp⟩ :=
    commit_writesBoard s d (lanewise (· ^^^ ·) (readBoard s r) (readBoard s q))
  refine ⟨_, _, _, rfl, rfl, hresp, ?_, fun p hp => ?_⟩
  · rw [hwritten, isEmpty_lanewise_xor, respondWith, deliver_responses]
  · rw [respondWith, readBoard_deliver, hother p hp]

theorem bitWord_beq_one (p : Bool) : (bitWord p == 1) = p := by revert p; decide

/-- Settles O58: the last answer of `exec_bxor_bemp`. -/
theorem xorThenEmptyTestsEquality : Obligations.XorThenEmptyTestsEquality := by
  intro d r q s
  obtain ⟨t, u, -, ht, hu, -, hresp, -⟩ := exec_bxor_bemp d r q s
  refine ⟨t, u, ht, hu, ?_⟩
  simp [hresp, okResponse, bitWord]

/-- Settles O59: `BCOPY` into the picked register, and the comparison of `exec_bxor_bemp` with a picked
register between. -/
theorem copyAndComparisonOfBoards : Obligations.CopyAndComparisonOfBoards := by
  refine ⟨fun d s st => ?_, fun a b => ?_, fun d s q st => ?_⟩
  · have hne : pickRegister [s] d ≠ s := pickRegister_ne s d
    obtain ⟨hwritten, hother, -, -⟩ :=
      commit_writesBoard st (pickRegister [s] d) (readBoard st s)
    exact ⟨_, _, hne, rfl, fun _ => rfl, rfl, hwritten, hother s hne.symm⟩
  · rw [valueOf_inj]
    exact (Board.mk.injEq a.high a.low b.high b.low).to_iff.symm
  · obtain ⟨hs, hq⟩ := pickRegister_ne_both s q d
    obtain ⟨t, u, r₁, ht, hu, hfirst, hsecond, hother⟩ :=
      exec_bxor_bemp (pickRegister [s, q] d) s q st
    rw [hfirst, List.append_assoc, List.singleton_append] at hsecond
    refine ⟨_, t, u, r₁, _, rfl, ht, hu, hsecond, ?_, hother s hs.symm, hother q hq.symm⟩
    simp only [resultOf, okResponse, bitWord_beq_one, valueOf_inj]

end Sys2Proof.Machine

/-! Obligation O55 (`46_host_adapter.md` R71, R77, R78): operands. A host object passes the shape check
by its two buckets and its length, and what `and`, `or` and `xor` issue is one lemma for each kind of
operand. -/

namespace Sys2Proof.Machine

theorem checkShape_eq_ok_iff {o : HostObject} {b : Board} :
    checkShape o = .ok b ↔ twoWords o.buckets = some b ∧ asInteger o.length = some 64 := by
  unfold checkShape
  cases twoWords o.buckets with
  | none => simp
  | some b => by_cases hlength : asInteger o.length = some 64 <;> simp [hlength]

theorem checkShape_eq_error {o : HostObject} (h : ¬∃ b, checkShape o = .ok b) :
    checkShape o = .error notABoard := by
  simp only [checkShape_eq_ok_iff, not_exists, not_and] at h
  unfold checkShape
  cases hb : twoWords o.buckets with
  | none => rfl
  | some b => exact if_neg (h b hb)

section
variable (op : BReg → BReg → BReg → Instr) (m : Mode) (s t : BReg) {o : HostObject}

theorem issueBinary_register :
    issueBinary op m s (.register t) = .ok [op (destination m s [t]) s t] := rfl

/-- A host object that passes the check is loaded into a register other than the receiver's. -/
theorem issueBinary_object {b : Board} (h : checkShape o = .ok b) :
    issueBinary op m s (.object o t) =
      .ok [.bld (pickRegister [s] t) b.high b.low,
        op (destination m s [pickRegister [s] t]) s (pickRegister [s] t)] := by
  simp [issueBinary, issueWithOperand, loadOperand, h]

theorem issueBinary_object_error {e : AdapterError} (h : checkShape o = .error e) :
    issueBinary op m s (.object o t) = .error e := by
  simp [issueBinary, issueWithOperand, loadOperand, h]

end

/-- Settles O55: the shape check passed and the object loaded, its one error, or a board in a register. -/
theorem foreignOperandIsNotABoard : Obligations.ForeignOperandIsNotABoard := by
  refine ⟨fun m s t o => ⟨fun x y h l hxs hx hy hmin hmax lmin lmax hlength => ?_, fun hnot => ?_⟩,
    fun m s t => ?_⟩
  · have hwords := twoWords_eq_some_iff.mpr ⟨x, y, h, l, hxs, hx, hy, hmin, hmax, lmin, lmax, rfl⟩
    have hshape := checkShape_eq_ok_iff.mpr ⟨hwords, hlength⟩
    exact ⟨_, _, pickRegister_ne s t, fun ht => pickRegister_of_allowed (by simpa using ht),
      destination_allowed_operand m s _, issueBinary_object .band m s t hshape,
      issueBinary_object .bor m s t hshape, issueBinary_object .bxor m s t hshape⟩
  · have herror : checkShape o = .error notABoard := checkShape_eq_error fun ⟨b, hb⟩ => by
      obtain ⟨hwords, hlength⟩ := checkShape_eq_ok_iff.mp hb
      obtain ⟨x, y, h, l, hxs, hx, hy, hmin, hmax, lmin, lmax, -⟩ := twoWords_eq_some_iff.mp hwords
      exact hnot ⟨x, y, h, l, hxs, hx, hy, hmin, hmax, lmin, lmax, hlength⟩
    exact ⟨issueBinary_object_error .band m s t herror, issueBinary_object_error .bor m s t herror,
      issueBinary_object_error .bxor m s t herror⟩
  · exact ⟨_, destination_allowed_operand m s t, issueBinary_register .band m s t,
      issueBinary_register .bor m s t, issueBinary_register .bxor m s t⟩

end Sys2Proof.Machine

/-! Obligations O57 and O56 (`46_host_adapter.md` R78; `20_memory.md` R20): the commands an operation
issues, run. Each of them can be encoded and passes its own range check, since the adapter's checks are
the tighter ones. Presented and run, it then ends as `exec` of it does. -/

namespace Sys2Proof.Machine

/-! ## Commands without an error -/

/-- The command can be encoded and its own rule does not reject its immediate (R26, R80). -/
structure InDomain (i : Instr) : Prop where
  wellFormed : i.wellFormed = true
  inRange : instrOutOfRange i = false

theorem exec_of_inDomain {i : Instr} (h : InDomain i) (s : State) :
    ∃ t r, exec i s = .next t ∧ t.inputs = s.inputs ∧ t.responses = s.responses ++ [r] ∧
      r.st = .ok := by
  cases exec_cases i s with
  | write rd b _ _ hend =>
    obtain ⟨-, -, hin, hresp⟩ := commit_writesBoard s rd b
    exact ⟨_, _, hend, hin, hresp, rfl⟩
  | answer rh rl _ _ hend => exact ⟨_, _, hend, rfl, rfl, rfl⟩
  | error herror _ => simp [h.inRange] at herror

theorem exec_writesBoard {i : Instr} {d : BReg} (h : InDomain i) (hrd : instrDestination i = some d)
    (s : State) : ∃ t b, exec i s = .next t ∧ WritesBoard s d b t := by
  cases exec_cases i s with
  | write rd b hrd' _ hend =>
    obtain rfl : rd = d := Option.some.inj (hrd'.symm.trans hrd)
    exact ⟨_, b, hend, commit_writesBoard s rd b⟩
  | answer _ _ hnone _ _ => simp [hrd] at hnone
  | error herror _ => simp [h.inRange] at herror

/-! ## Running presented commands (R20) -/

@[simp] theorem present_nil (s : State) : present s [] = s := by simp [present]

/-- A command does the same whatever else the host has presented. -/
theorem exec_present {i : Instr} {s t : State} (h : exec i s = .next t) (cs : List Command) :
    exec i (present s cs) = .next (present t cs) := by
  obtain ⟨t₁, t₂, r, h₁, h₂, hregs, hin₁, hin₂, hresp₁, hresp₂⟩ :=
    exec_endsAlike (present_regs s cs) i
  obtain rfl := Host.Outcome.next.inj (h.symm.trans h₂)
  obtain ⟨regs, inputs, responses⟩ := t₁
  simp_all [present]

/-- The first of the presented commands runs, and the others remain presented. -/
theorem run_present_cons {i : Instr} {s t : State} (hwf : i.wellFormed = true)
    (hin : s.inputs = []) (h : exec i s = .next t) (k : Nat) (cs : List Command) :
    core.run (k + 1) (present s (encode i :: cs)) = core.run k (present t cs) := by
  have hinputs : (present s (encode i :: cs)).inputs = .command (encode i) :: cs.map .command := by
    simp [hin]
  have htake : takeInput (present s (encode i :: cs)) (cs.map .command) = present s cs := by
    simp [takeInput, present, hin]
  refine run_succ_of_step ?_ k
  calc step (present s (encode i :: cs))
    _ = execute (encode i) (present s cs) := by rw [step_of_command hinputs, htake]
    _ = exec i (present s cs) := execute_of_decode (decodeOfEncodeIsTheCommand i hwf) _
    _ = .next (present t cs) := exec_present h cs

theorem noErrorSoFar_of_append {s t : State} {r : Response}
    (h : t.responses = s.responses ++ [r]) :
    noErrorSoFar t = (noErrorSoFar s && r.st == .ok) := by
  simp [noErrorSoFar, h]

/-- Commands without an error, run one after the other: all are taken, each is answered once, and no
answer is an error. -/
theorem run_present_of_inDomain {is : List Instr} (h : ∀ i ∈ is, InDomain i) {s : State}
    (hin : s.inputs = []) :
    ∃ t, core.run is.length (present s (is.map encode)) = .next t ∧ t.inputs = [] ∧
      t.responses.length = s.responses.length + is.length ∧ noErrorSoFar t = noErrorSoFar s := by
  induction is generalizing s with
  | nil => exact ⟨s, by simp [Host.Core.run], hin, rfl, rfl⟩
  | cons i is ih =>
    obtain ⟨hi, his⟩ := List.forall_mem_cons.mp h
    obtain ⟨u, r, hu, huin, huresp, hok⟩ := exec_of_inDomain hi s
    obtain ⟨t, hrun, htin, htresp, hterr⟩ := ih his (huin.trans hin)
    refine ⟨t, (run_present_cons hi.wellFormed hin hu _ _).trans hrun, htin, ?_, ?_⟩
    · simp [htresp, huresp]
      omega
    · simp [hterr, noErrorSoFar_of_append huresp, hok]

/-! ## The issued commands are without an error (R75, R76) -/

/-- An index that passes the check is one that `BGET`, `BORO` and `BXRO` accept. -/
theorem index_inDomain {x : HostScalar} {k : Int} (h : checkIndex x = .ok k) :
    immFits k = true ∧ decide (OutsideBoard k) = false := by
  obtain ⟨-, hmin, hmax⟩ := checkIndex_eq_ok_iff.mp h
  exact ⟨immFits_iff.mpr (by omega), decide_eq_false (by omega)⟩

/-- A clamped shift is one that `BSHL` and `BSHR` accept. -/
theorem shift_inDomain {x : HostScalar} {k : Int} (h : checkShift x = .ok k) :
    immFits k = true ∧ decide (k < 0) = false := by
  obtain ⟨n, -, hmin, rfl⟩ := checkShift_eq_ok_iff.mp h
  exact ⟨immFits_iff.mpr (by omega), decide_eq_false (by omega)⟩

theorem issueWithOperand_inDomain {avoid : List BReg} {mk : BReg → List Instr} {other : Operand}
    {is : List Instr} (hmk : ∀ t, ∀ i ∈ mk t, InDomain i)
    (h : issueWithOperand avoid mk other = .ok is) : ∀ i ∈ is, InDomain i := by
  obtain ⟨load, hload, rfl⟩ := issueWithOperand_cases h
  refine List.forall_mem_append.mpr ⟨?_, hmk _⟩
  obtain ⟨t, -, rfl⟩ | ⟨o, t, b, -, -, rfl⟩ := loadOperand_cases hload
  · exact List.forall_mem_nil _
  · exact List.forall_mem_singleton.mpr ⟨rfl, rfl⟩

/-- Every command of every operation whose checks pass. -/
theorem issue_inDomain {call : HostCall} {is : List Instr} (h : issue call = .ok is) :
    ∀ i ∈ is, InDomain i := by
  cases call with
  | newZero _ | not _ _ | isEmpty _ | toBinaryString _ | flipVertical _ _ | flipDiagonal _ _
  | rotate180 _ _ | rotate90Clockwise _ _ =>
    obtain rfl := Except.ok.inj h
    exact List.forall_mem_singleton.mpr ⟨rfl, rfl⟩
  | newArray _ _ | newString _ _ =>
    obtain ⟨b, -, rfl⟩ := issueLoad_eq_ok_iff.mp h
    exact List.forall_mem_singleton.mpr ⟨rfl, rfl⟩
  | getIndex s x =>
    obtain ⟨k, hk, rfl⟩ := issueWithInt_eq_ok_iff.mp h
    obtain ⟨hfits, hrange⟩ := index_inDomain hk
    exact List.forall_mem_singleton.mpr ⟨hfits, hrange⟩
  | shiftLeft _ _ _ | shiftRight _ _ _ =>
    obtain ⟨k, hk, rfl⟩ := issueWithInt_eq_ok_iff.mp h
    obtain ⟨hfits, hrange⟩ := shift_inDomain hk
    exact List.forall_mem_singleton.mpr ⟨hfits, hrange⟩
  | orAtOffset _ _ _ _ | xorAtOffset _ _ _ _ =>
    obtain ⟨k, v, hk, -, rfl⟩ := issueOffset_eq_ok_iff.mp h
    obtain ⟨hfits, hrange⟩ := index_inDomain hk
    exact List.forall_mem_singleton.mpr ⟨hfits, hrange⟩
  | and _ _ _ | or _ _ _ | xor _ _ _ | copy _ _ =>
    exact issueWithOperand_inDomain (fun _ => List.forall_mem_singleton.mpr ⟨rfl, rfl⟩) h
  | equal _ _ _ =>
    exact issueWithOperand_inDomain
      (fun _ => List.forall_mem_cons.mpr ⟨⟨rfl, rfl⟩, List.forall_mem_singleton.mpr ⟨rfl, rfl⟩⟩) h

/-! ## Calls that write a board (R78) -/

/-- A call of one command with a destination. -/
theorem callWrites_of_issue {call : HostCall} {i : Instr} {d : BReg} {st : State}
    (hissue : issue call = .ok [i]) (hresult : ∀ r, resultOf call r = .board d)
    (hrd : instrDestination i = some d) (hin : st.inputs = []) : CallWrites call i d st := by
  have hi : InDomain i := List.forall_mem_singleton.mp (issue_inDomain hissue)
  obtain ⟨t, b, ht, hwrites⟩ := exec_writesBoard hi hrd st
  refine ⟨hissue, hresult, t, b, ?_, ht, hwrites⟩
  rw [run_present_cons hi.wellFormed hin ht, present_nil]
  rfl

/-- A call that loads a host object into `w` and then runs one command with a destination. -/
theorem loadingCall_writes {call : HostCall} {i : Instr} {w d : BReg} {ob : Board} {st : State}
    (hissue : issue call = .ok [.bld w ob.high ob.low, i]) (hrd : instrDestination i = some d)
    (hin : st.inputs = []) :
    ∃ u t b, core.run 2 (present st [encode (.bld w ob.high ob.low), encode i]) = .next t ∧
      exec (.bld w ob.high ob.low) st = .next u ∧ WritesBoard st w ob u ∧
      exec i u = .next t ∧ WritesBoard u d b t ∧
      ∀ r, r ≠ w → r ≠ d → readBoard t r = readBoard st r := by
  obtain ⟨hload, hi⟩ : InDomain (.bld w ob.high ob.low) ∧ InDomain i := by
    simpa using issue_inDomain hissue
  have hu : exec (.bld w ob.high ob.low) st = .next (commit st w ob) := rfl
  obtain ⟨-, hukeeps, huin, -⟩ := commit_writesBoard st w ob
  obtain ⟨t, b, ht, hwrites⟩ := exec_writesBoard hi hrd (commit st w ob)
  have ⟨_, htkeeps, _, _⟩ := hwrites
  refine ⟨_, t, b, ?_, hu, commit_writesBoard st w ob, ht, hwrites, fun r hw hd => ?_⟩
  · rw [run_present_cons hload.wellFormed hin hu,
      run_present_cons hi.wellFormed (huin.trans hin) ht, present_nil]
    rfl
  · rw [htkeeps r hd, hukeeps r hw]

theorem destination_of_named {m : Mode} {s p : BReg} {others : List BReg} (hm : m = .fresh p)
    (hs : p ≠ s) (hothers : p ∉ others) : destination m s others = p := by
  subst hm
  exact pickRegister_of_allowed (by simp [hs, hothers])

theorem ne_receiver_of_allowedDestination {m : Mode} {s d : BReg} {others : List BReg}
    (hm : m ≠ .modify) (h : AllowedDestination m s others d) : d ≠ s := by
  cases m with
  | modify => exact absurd rfl hm
  | fresh p => exact h.1

/-! ## The statements -/

/-- Settles O57: every issued command is in its domain, so each runs and is answered without an error. -/
theorem issuedCommandsAllComplete : Obligations.IssuedCommandsAllComplete := by
  intro call is s hissue hin hok
  obtain ⟨t, hrun, htin, hresp, herr⟩ := run_present_of_inDomain (issue_inDomain hissue) hin
  exact ⟨t, hrun, htin, hresp, herr.trans hok⟩

/-- Settles O56: each operation's command and result are those of its shape, with the destination the
flag allows; that the command then writes it and nothing else is `callWrites_of_issue`, and
`loadingCall_writes` for a host object. -/
theorem modifyFlagChoosesTheDestination : Obligations.ModifyFlagChoosesTheDestination := by
  refine ⟨fun m s st hin => ⟨destination m s [], destination_allowed m s,
      fun p hm hs => destination_of_named hm hs List.not_mem_nil, ?unary, ?shift, ?offset⟩,
    fun m s q st hin => ⟨destination m s [q], destination_allowed_operand m s q,
      fun p hm hs hq => destination_of_named hm hs (by simpa using hq), ?binary⟩,
    fun m s q o ob st hin hshape => ?object⟩
  case unary =>
    intro ci hci
    have hcall : issue ci.1 = .ok [ci.2] ∧ (∀ r, resultOf ci.1 r = .board (destination m s [])) ∧
        instrDestination ci.2 = some (destination m s []) := by
      revert ci
      simp only [List.forall_mem_cons]
      exact ⟨⟨rfl, fun _ => rfl, rfl⟩, ⟨rfl, fun _ => rfl, rfl⟩, ⟨rfl, fun _ => rfl, rfl⟩,
        ⟨rfl, fun _ => rfl, rfl⟩, ⟨rfl, fun _ => rfl, rfl⟩, List.forall_mem_nil _⟩
    obtain ⟨hissue, hresult, hrd⟩ := hcall
    exact callWrites_of_issue hissue hresult hrd hin
  case shift =>
    intro x n hn
    have hissue : ∀ mk, issueWithInt mk (checkShift x) = .ok [mk n] := fun mk =>
      issueWithInt_eq_ok_iff.mpr ⟨n, hn, rfl⟩
    exact ⟨callWrites_of_issue (hissue _) (fun _ => rfl) rfl hin,
      callWrites_of_issue (hissue _) (fun _ => rfl) rfl hin⟩
  case offset =>
    intro x y k v hk hv
    have hissue : ∀ mk, issueOffset mk x y = .ok [mk k v] := fun mk =>
      issueOffset_eq_ok_iff.mpr ⟨k, v, hk, hv, rfl⟩
    exact ⟨callWrites_of_issue (hissue _) (fun _ => rfl) rfl hin,
      callWrites_of_issue (hissue _) (fun _ => rfl) rfl hin⟩
  case binary =>
    exact ⟨callWrites_of_issue rfl (fun _ => rfl) rfl hin,
      callWrites_of_issue rfl (fun _ => rfl) rfl hin, callWrites_of_issue rfl (fun _ => rfl) rfl hin⟩
  case object =>
    intro w load
    have hw : w ≠ s := pickRegister_ne s q
    have hallowed : AllowedDestination m s [w] (destination m s [w]) :=
      destination_allowed_operand m s w
    refine ⟨hw, fun hq => pickRegister_of_allowed (by simpa using hq), destination m s [w], hallowed,
      fun p hm hs hpw => destination_of_named hm hs (by simpa using hpw), fun ci hci => ?_⟩
    have hcall : issue ci.1 = .ok [load, ci.2] ∧
        (∀ r, resultOf ci.1 r = .board (destination m s [w])) ∧
        instrDestination ci.2 = some (destination m s [w]) := by
      revert ci
      simp only [List.forall_mem_cons]
      exact ⟨⟨issueBinary_object .band m s q hshape, fun _ => rfl, rfl⟩,
        ⟨issueBinary_object .bor m s q hshape, fun _ => rfl, rfl⟩,
        ⟨issueBinary_object .bxor m s q hshape, fun _ => rfl, rfl⟩, List.forall_mem_nil _⟩
    obtain ⟨hissue, hresult, hrd⟩ := hcall
    obtain ⟨u, t, b, hrun, hu, hloaded, ht, hwrites, hkeeps⟩ := loadingCall_writes hissue hrd hin
    exact ⟨hissue, hresult, u, t, b, hrun, hu, hloaded, ht, hwrites,
      fun hm => hkeeps s hw.symm (ne_receiver_of_allowedDestination hm hallowed).symm⟩

end Sys2Proof.Machine

/-! Obligations O7, O8, O11, O14 and O15 (`60_exceptions.md` R80 to R84; `70_reset_and_hazards.md` R89 to
R91): the class a command reports, the idle engine, and reset.

O7 and O8 rest on one fact. A transaction reports the class that `reportedStatus` computes from the
command word, and an error leaves the boards as they were (`execute_reports`). -/

namespace Sys2Proof.Machine

/-! ## The class a command reports (R80, R81, R83) -/

/-- The outcome `o` of a command run in `s` is a next state with one more response, of class `e` and
with what the host presents left in place; an error leaves the boards as in `s` and carries two zero
result words (R31, R81). -/
def Reports (s : State) (e : Status) (o : Host.Outcome State Fault Refusal) : Prop :=
  ∃ t r, o = .next t ∧ t.inputs = s.inputs ∧ t.responses = s.responses ++ [r] ∧ r.st = e ∧
    (e ≠ .ok → t.regs = s.regs ∧ r.rh = 0 ∧ r.rl = 0)

theorem commit_reports (s : State) (rd : BReg) (b : Board) :
    Reports s .ok (.next (commit s rd b)) := by
  obtain ⟨-, -, hin, hresp⟩ := commit_writesBoard s rd b
  exact ⟨_, _, rfl, hin, hresp, rfl, absurd rfl⟩

theorem respondWith_reports (s : State) (rh rl : Word) :
    Reports s .ok (.next (respondWith s rh rl)) := by
  obtain ⟨-, hin, hresp⟩ := respondWith_answersWords s rh rl
  exact ⟨_, _, rfl, hin, hresp, rfl, absurd rfl⟩

theorem raiseError_reports (s : State) (e : Status) : Reports s e (.next (raiseError s e)) := by
  obtain ⟨hregs, hin, hresp⟩ := raiseError_raisesError s e
  exact ⟨_, _, rfl, hin, hresp, rfl, fun _ => ⟨regs_eq_of_readBoard_eq hregs, rfl, rfl⟩⟩

/-- A legal command fails on its range check and on nothing else (R80). -/
theorem exec_reports (i : Instr) (s : State) :
    Reports s (if instrOutOfRange i then .outOfRange else .ok) (exec i s) := by
  cases exec_cases i s with
  | write rd b _ hrange h =>
    rw [hrange, h]
    exact commit_reports s rd b
  | answer rh rl _ hrange h =>
    rw [hrange, h]
    exact respondWith_reports s rh rl
  | error hrange h =>
    rw [hrange, h]
    exact raiseError_reports s .outOfRange

/-- A word that does not decode fails one of the first two checks of R83. -/
theorem reportedStatus_of_decode_error {c : Command} {e : Illegal} (h : decode c = .error e) :
    reportedStatus c.cmd = .illegalCommand := by
  unfold reportedStatus
  obtain hop | hword := (exists_decode_eq_error_iff c).mp ⟨e, h⟩
  · rw [if_pos hop]
  · rw [if_pos hword, ite_self]

theorem execute_reports (c : Command) (s : State) :
    Reports s (reportedStatus c.cmd) (execute c s) := by
  obtain ⟨i, hdec, hexec⟩ | ⟨e, hdec, hexec⟩ := execute_cases c s
  · rw [reportedStatus_of_decode hdec, hexec]
    exact exec_reports i s
  · rw [reportedStatus_of_decode_error hdec, hexec]
    exact raiseError_reports s .illegalCommand

theorem step_reports {c : Command} {rest : List HostInput} {s : State}
    (h : s.inputs = .command c :: rest) :
    Reports (takeInput s rest) (reportedStatus c.cmd) (step s) := by
  rw [step_of_command h]
  exact execute_reports c (takeInput s rest)

/-! ## Steps without a command (R89, R90) -/

theorem step_of_idle {s : State} (h : s.inputs = []) : step s = .next s := by simp [step, h]

theorem step_of_reset {s : State} {rest : List HostInput} (h : s.inputs = .reset :: rest) :
    step s = .next (resetEngine rest) := by simp [step, h]

/-- The boards after `RESET` are those of the reset state; what the host presents is no board. -/
@[simp] theorem readBoard_resetEngine (rest : List HostInput) (r : BReg) :
    readBoard (resetEngine rest) r = zeroBoard :=
  (readBoard_congr (resetEngine_regs rest) r).trans (readBoard_reset r)

/-! ## Answers of the reset state (R91) -/

/-- A command that answers two words in the reset state gives the first response there is. -/
theorem respondWith_reset_responses (h l : Word) :
    (respondWith State.reset h l).responses = [⟨.ok, h, l⟩] := by
  obtain ⟨-, -, hresp⟩ := respondWith_answersWords State.reset h l
  simpa using hresp

theorem valueOf_zeroBoard : valueOf zeroBoard = 0 := (isEmpty_iff zeroBoard).mp rfl

theorem exec_brd (r : BReg) (s : State) :
    exec (.brd r) s = .next (respondWith s (readBoard s r).high (readBoard s r).low) := rfl

theorem exec_bemp (r : BReg) (s : State) :
    exec (.bemp r) s = .next (respondWith s 0 (bitWord (isEmpty (readBoard s r)))) := rfl

theorem exec_brd_reset (r : BReg) :
    exec (.brd r) State.reset = .next (respondWith State.reset 0 0) := by
  rw [exec_brd, readBoard_reset, zeroBoard]

theorem exec_bemp_reset (r : BReg) :
    exec (.bemp r) State.reset = .next (respondWith State.reset 0 1) := by
  rw [exec_bemp, readBoard_reset]
  rfl

theorem exec_bget_reset (r : BReg) {n : Int} (hin : ¬OutsideBoard n) :
    exec (.bget r n) State.reset = .next (respondWith State.reset 0 0) := by
  rw [exec_bget_of_inside hin, readBoard_reset, valueOf_zeroBoard, idx_zero]
  rfl

/-! ## The statements -/

/-- Settles O7: what `step_reports` says of a class that is not OK. -/
theorem failedCommandChangesNothing : Obligations.FailedCommandChangesNothing := by
  intro c rest s h
  obtain ⟨t, r, ht, hin, hresp, hst, herr⟩ := step_reports h
  refine ⟨t, r, ht, hresp, fun hfail => ?_⟩
  obtain ⟨hregs, hrh, hrl⟩ := herr (hst ▸ hfail)
  exact ⟨hregs, hin, hrh, hrl⟩

/-- Settles O8: the class of `step_reports`, and the zero result words of an error. -/
theorem statusIsTheFirstFailingCheck : Obligations.StatusIsTheFirstFailingCheck := by
  intro c rest s h
  obtain ⟨t, r, ht, -, hresp, hst, herr⟩ := step_reports h
  refine ⟨t, r, ht, hresp, hst, fun hfail => ?_⟩
  obtain ⟨-, hwords⟩ := herr (hst ▸ hfail)
  exact hwords

/-- Settles O11: the idle branch of the step. -/
theorem idleEngineKeepsItsState : Obligations.IdleEngineKeepsItsState := fun _ => step_of_idle

/-- Settles O14: the reset branch of the step, and what `resetEngine` holds. -/
theorem resetInputGivesTheResetState : Obligations.ResetInputGivesTheResetState := by
  intro rest s h
  exact ⟨resetEngine rest, step_of_reset h, readBoard_resetEngine rest,
    resetEngine_responses rest, resetEngine_inputs rest⟩

/-- Settles O15: each query of the zero board, and its answer as the first response. -/
theorem everyRegisterIsEmptyAfterReset : Obligations.EveryRegisterIsEmptyAfterReset := by
  refine fun r => ⟨⟨_, exec_brd_reset r, respondWith_reset_responses 0 0⟩,
    ⟨_, exec_bemp_reset r, respondWith_reset_responses 0 1⟩, fun n hmin hmax => ?_⟩
  have hin : ¬OutsideBoard n := by omega
  exact ⟨_, exec_bget_reset r hin, respondWith_reset_responses 0 0⟩

end Sys2Proof.Machine
